-- ==== Sys2Proof/Word.lean ====
section
/-! DEFINITION. The two word types of the core: bytes (registers, memory cells) and 16-bit addresses (rule R8). -/

namespace Sys2Proof

/-- An 8-bit value, `u8` of rule R10. `+` and `-` on it wrap modulo 256. -/
abbrev Byte := BitVec 8

/-- A 16-bit value, `u16` of rule R10: an address or a program counter. `+` and `-` on it wrap modulo 65536. -/
abbrev Addr := BitVec 16

end Sys2Proof
end

