-- ==== Sys2Proof/Config.lean ====
section
/-! DEFINITION. The parameters the spec leaves to the model as named arguments (rule R9), with their default values.
They are constant for the life of a model instance (10_state.md, introduction). `CYCLES_WIDTH` has no field: rule R26
fixes the counter as an unbounded natural number (log 3). -/

namespace Sys2Proof

/-- `FAULT_POLICY` (rule R9): what `run` does on an IllegalOpcode (rules R114 to R116). -/
inductive FaultPolicy where
  | abort
  | halt
  | skip
deriving DecidableEq, Repr

/-- `DECIMAL_MODE_BEHAVIOUR` (rule R9): its type is open and its one value is OPEN (rule R98, decision D29). -/
inductive DecimalMode where
  | leftOpen
deriving DecidableEq, Repr

/-- The parameters of rule R9, each with the default value the rule states. -/
structure Config where
  /-- `ZP_INDEXED_EXTRA`, 0 or 1: the fixed extra cycle of ZeroPageX and ZeroPageY (rule R75). -/
  zpIndexedExtra : Nat := 1
  /-- `HALT_OPCODE`: the designated halt opcode, if any (rule R58). -/
  haltOpcode : Option Byte := none
  /-- `HALT_CYCLES`, at least 1: the cycles a halt step charges (rule R100). -/
  haltCycles : Nat := 1
  /-- `FAULT_POLICY` (rules R110, R114 to R116). -/
  faultPolicy : FaultPolicy := .abort
  /-- `SKIP_CYCLES`, at least 1: the cycles of the substituted no-op (rule R116). -/
  skipCycles : Nat := 2
  /-- `DISABLED_OPCODES`, a set given by the list of its members: implemented opcodes explicitly disabled (rule R57). -/
  disabledOpcodes : List Byte := []
  /-- `START_PC`: the caller's override of the reset vector (rule R125). -/
  startPc : Option Addr := none
  /-- `INITIAL_IMAGE`: the memory image preloaded before reset (rule R125), in memory's canonical form. -/
  initialImage : Option (List Host.Cell) := none
  /-- `DECIMAL_MODE_BEHAVIOUR`: left open; no implemented instruction reads flag D (rule R98). -/
  decimalMode : DecimalMode := .leftOpen
deriving DecidableEq, Repr

/-- The default configuration of rule R9. -/
def Config.default : Config := {}

end Sys2Proof
end

