-- ==== Sys2Proof/Machine/Bits.lean ====
section
/-! DEFINITION. Bit fields, zero extension and byte order (rules R10 and R34). -/

namespace Sys2Proof

/-- `lo(v) = v[7:0]` (rule R10). -/
def loByte (v : Addr) : Byte := v.extractLsb' 0 8

/-- `hi(v) = v[15:8]` (rule R10). -/
def hiByte (v : Addr) : Byte := v.extractLsb' 8 8

/-- `(hi << 8) | lo`, the 16-bit value with high byte `hi` and low byte `lo` (rule R10). -/
def wordOf (hi lo : Byte) : Addr := hi ++ lo

/-- `zext_16(v)` (rule R10). -/
def zext16 (v : Byte) : Addr := v.setWidth 16

/-- `PageCross(base, ea)`: the high bytes differ (rule R80). -/
def pageCross (base ea : Addr) : Bool := hiByte base != hiByte ea

/-- Byte `k` of a number whose bit 0 is the least significant bit of byte 0 (rule R51). -/
def byteOfNat (k w : Nat) : Byte := BitVec.ofNat 8 (w >>> (8 * k))

end Sys2Proof
end

