-- ==== Sys2Proof/Machine/Memory.lean ====
section
/-! DEFINITION. Memory: the flat, unsegmented array of 65536 bytes (rule R29), held as a list of (address, byte) pairs
in one canonical form, and byte and word access to it (rules R32, R33). No access can fail (rule R31). -/

namespace Sys2Proof.Machine

/-- Memory as the cells that differ from `unlistedByte`, addresses strictly rising. -/
abbrev Memory := List Host.Cell

/-- The size of the address space in bytes (rule R8). -/
def memorySize : Nat := 65536

/-- What an address that the list does not name reads as: 0x00, the content reset gives memory (rules R28, R125). -/
def unlistedByte : Byte := 0x00

/-- Memory with nothing listed: 65536 bytes of 0x00 (rule R125). -/
def Memory.zeroed : Memory := []

/-- The byte at an address key. -/
def Memory.lookup : Memory → Nat → Byte
  | [], _ => unlistedByte
  | (k, v) :: m, a => if k = a then v else Memory.lookup m a

/-- Put a cell in front unless its byte is what an unlisted address reads as. -/
def Memory.consCell (a : Nat) (v : Byte) (m : Memory) : Memory :=
  if v = unlistedByte then m else (a, v) :: m

/-- Replace the byte at an address key, keeping the canonical form. -/
def Memory.store : Memory → Nat → Byte → Memory
  | [], a, v => Memory.consCell a v []
  | (k, w) :: m, a, v =>
    if a < k then Memory.consCell a v ((k, w) :: m)
    else if a = k then Memory.consCell a v m
    else (k, w) :: Memory.store m a v

/-- `read_byte(addr)` (rule R32). -/
def Memory.readByte (m : Memory) (a : Addr) : Byte := Memory.lookup m a.toNat

/-- `write_byte(addr, value)` (rule R32). -/
def Memory.writeByte (m : Memory) (a : Addr) (v : Byte) : Memory := Memory.store m a.toNat v

/-- `read_word(addr)`: little-endian, the address of the high byte wraps modulo 65536 (rule R33). -/
def Memory.readWord (m : Memory) (a : Addr) : Addr := wordOf (Memory.readByte m (a + 1)) (Memory.readByte m a)

/-- `write_word(addr, v)`: low byte at `addr`, high byte at `addr + 1` modulo 65536 (rule R33). -/
def Memory.writeWord (m : Memory) (a : Addr) (v : Addr) : Memory :=
  Memory.writeByte (Memory.writeByte m a (loByte v)) (a + 1) (hiByte v)

/-- The canonical form from a least admissible key on: keys strictly rising and below 65536, no cell equal to what an
unlisted address reads as. -/
def Memory.wfFrom : Nat → Memory → Bool
  | _, [] => true
  | least, (k, v) :: m => decide (least ≤ k) && decide (k < memorySize) && decide (v ≠ unlistedByte) && Memory.wfFrom (k + 1) m

/-- The canonical form of memory. -/
def Memory.wf (m : Memory) : Bool := Memory.wfFrom 0 m

/-- The memory image an address-to-bytes overlay gives: the overlay applied over zeroed memory (rule R124, decision
D16). Where the list names an address twice the later byte stands (log 14). -/
def Memory.ofOverlay (cells : List (Addr × Byte)) : Memory :=
  cells.foldl (fun m c => Memory.writeByte m c.1 c.2) Memory.zeroed

end Sys2Proof.Machine
end

