-- ==== Sys2Proof/Syntax.lean ====
section
/-! DEFINITION. The instructions as data: one constructor of `Instr` for each of the seven implemented rows of
spec/opcode_table.json, one for its 249 UNIMPLEMENTED rows, which differ in the opcode byte alone (rule R99, log 9),
and one for the halt descriptor that replaces such a row where `HALT_OPCODE` names it (rule R100).
Beside them the record types of the instruction table (rules R51, R61). -/

namespace Sys2Proof

/-- The addressing modes of rule R61. The last four are extension points without a resolution (rule R82). -/
inductive Mode where
  | immediate
  | zeroPage
  | zeroPageX
  | zeroPageY
  | absolute
  | absoluteX
  | absoluteY
  | noOperand
  | indirect
  | indirectX
  | indirectY
  | relative
deriving DecidableEq, Repr

/-- The semantic operation a descriptor names (rule R61). -/
inductive Handler where
  | lda
  | jsr
  | unimplemented
  | halt
deriving DecidableEq, Repr

/-- A descriptor's mnemonic; `unimplemented` is the row's name in the opcode table (rules R55, R62). -/
inductive Mnemonic where
  | lda
  | jsr
  | unimplemented
  | halt
deriving DecidableEq, Repr

/-- The four instruction formats of rule R51. -/
inductive Format where
  | op
  | imm8
  | zp8
  | abs16
deriving DecidableEq, Repr

/-- The immutable InstructionDescriptor record of rule R61. -/
structure Descriptor where
  opcode : Byte
  mnemonic : Mnemonic
  mode : Mode
  handler : Handler
  baseCycles : Nat
  alwaysPenalize : Bool
deriving DecidableEq, Repr

/-- The seven implemented forms, one for each row of the table of rule R54. -/
inductive Form where
  | jsr
  | ldaImm
  | ldaZp
  | ldaZpX
  | ldaAbs
  | ldaAbsX
  | ldaAbsY
deriving DecidableEq, Repr

/-- An instruction with its operand, as the decoder reads it. -/
inductive Instr where
  /-- `JSR $hhll` (rule R90). -/
  | jsr (target : Addr)
  /-- `LDA #$nn` (rule R84). -/
  | ldaImm (imm8 : Byte)
  /-- `LDA $zz` (rule R85). -/
  | ldaZp (zp : Byte)
  /-- `LDA $zz,X` (rule R86). -/
  | ldaZpX (zp : Byte)
  /-- `LDA $hhll` (rule R87). -/
  | ldaAbs (addr : Addr)
  /-- `LDA $hhll,X` (rule R88). -/
  | ldaAbsX (addr : Addr)
  /-- `LDA $hhll,Y` (rule R89). -/
  | ldaAbsY (addr : Addr)
  /-- The halt descriptor at the configured byte (rule R100). -/
  | halt (opcode : Byte)
  /-- The Unimplemented descriptor at any other byte (rule R99). -/
  | unimplemented (opcode : Byte)
deriving DecidableEq, Repr

end Sys2Proof
end

