-- ==== Sys2Proof/Decode.lean ====
section
/-! DEFINITION. The instruction table (rules R54, R55, R62), the decoder, total on any bytes (rules R51 to R59), and
after it the encoder, written from the same table. -/

namespace Sys2Proof

/-- The descriptor row of each implemented form: opcode byte (rule R54), mode, handler, base cycles and
always-penalize flag (rule R62). The opcode bytes are the NMOS 6502 assignments that rule R54 adopts (log 2). -/
def Form.descriptor : Form → Descriptor
  | .jsr => ⟨0x20, .jsr, .absolute, .jsr, 6, false⟩
  | .ldaImm => ⟨0xA9, .lda, .immediate, .lda, 2, false⟩
  | .ldaZp => ⟨0xA5, .lda, .zeroPage, .lda, 3, false⟩
  | .ldaZpX => ⟨0xB5, .lda, .zeroPageX, .lda, 4, false⟩
  | .ldaAbs => ⟨0xAD, .lda, .absolute, .lda, 4, false⟩
  | .ldaAbsX => ⟨0xBD, .lda, .absoluteX, .lda, 4, false⟩
  | .ldaAbsY => ⟨0xB9, .lda, .absoluteY, .lda, 4, false⟩

/-- The seven implemented forms (rule R54). -/
def Form.all : List Form := [.jsr, .ldaImm, .ldaZp, .ldaZpX, .ldaAbs, .ldaAbsX, .ldaAbsY]

/-- The opcode byte of an implemented form (rule R54). -/
def Form.opcode (f : Form) : Byte := f.descriptor.opcode

/-- The form a byte is assigned to, `none` for the 249 bytes without an implemented descriptor (rules R54, R55). -/
def formOf (op : Byte) : Option Form := Form.all.find? fun f => f.opcode == op

/-- The seven implemented opcode bytes (rule R54). -/
def implementedOpcodes : List Byte := Form.all.map Form.opcode

/-- What a byte is under a configuration: one of the seven implemented opcodes, the halt opcode, or Unimplemented
(rule R59). -/
inductive OpcodeClass where
  | implemented (f : Form)
  | halt
  | unimplemented
deriving DecidableEq, Repr

/-- The class of a byte: `HALT_OPCODE` replaces its row (rule R58), a byte of `DISABLED_OPCODES` reads as Unimplemented
(rule R57), and every byte without a form is Unimplemented (rule R56). -/
def classify (cfg : Config) (op : Byte) : OpcodeClass :=
  if cfg.haltOpcode = some op then .halt
  else if cfg.disabledOpcodes.contains op then .unimplemented
  else
    match formOf op with
    | some f => .implemented f
    | none => .unimplemented

/-- The InstructionTable: a total, closed function from byte to descriptor (rule R62). -/
def table (cfg : Config) (op : Byte) : Descriptor :=
  match classify cfg op with
  | .implemented f => f.descriptor
  | .halt => ⟨op, .halt, .noOperand, .halt, cfg.haltCycles, false⟩
  | .unimplemented => ⟨op, .unimplemented, .noOperand, .unimplemented, 0, false⟩

/-- The format a mode's descriptors use (rule R51); none for the extension points (rule R82). -/
def Mode.format : Mode → Option Format
  | .immediate => some .imm8
  | .zeroPage | .zeroPageX | .zeroPageY => some .zp8
  | .absolute | .absoluteX | .absoluteY => some .abs16
  | .noOperand => some .op
  | .indirect | .indirectX | .indirectY | .relative => none

/-- The operand bytes of a format, those after the opcode byte (rule R51). -/
def Format.operandBytes : Format → Nat
  | .op => 0
  | .imm8 => 1
  | .zp8 => 1
  | .abs16 => 2

/-- The format of each implemented form (rule R54). -/
def Form.format : Form → Format
  | .jsr => .abs16
  | .ldaImm => .imm8
  | .ldaZp => .zp8
  | .ldaZpX => .zp8
  | .ldaAbs => .abs16
  | .ldaAbsX => .abs16
  | .ldaAbsY => .abs16

/-- The length of a form's instruction in bytes, the opcode byte included (rules R52, R54). -/
def Form.length (f : Form) : Nat := 1 + f.format.operandBytes

/-- The format of an instruction; the Unimplemented and halt descriptors have format OP (rule R51). -/
def Instr.format : Instr → Format
  | .jsr _ => Form.jsr.format
  | .ldaImm _ => Form.ldaImm.format
  | .ldaZp _ => Form.ldaZp.format
  | .ldaZpX _ => Form.ldaZpX.format
  | .ldaAbs _ => Form.ldaAbs.format
  | .ldaAbsX _ => Form.ldaAbsX.format
  | .ldaAbsY _ => Form.ldaAbsY.format
  | .halt _ => .op
  | .unimplemented _ => .op

/-- Instruction length in bytes, the opcode byte included (rule R52). -/
def Instr.length (i : Instr) : Nat := 1 + i.format.operandBytes

/-- The opcode byte of an instruction (rules R54, R99, R100). -/
def Instr.opcode : Instr → Byte
  | .jsr _ => Form.jsr.opcode
  | .ldaImm _ => Form.ldaImm.opcode
  | .ldaZp _ => Form.ldaZp.opcode
  | .ldaZpX _ => Form.ldaZpX.opcode
  | .ldaAbs _ => Form.ldaAbs.opcode
  | .ldaAbsX _ => Form.ldaAbsX.opcode
  | .ldaAbsY _ => Form.ldaAbsY.opcode
  | .halt op => op
  | .unimplemented op => op

/-- An implemented form with its operand assembled from the bytes after the opcode: `imm8` and `zp` are byte 1, `addr`
is `(byte2 << 8) | byte1` (rule R53). -/
def Form.build (f : Form) (b1 b2 : Byte) : Instr :=
  match f with
  | .jsr => .jsr (wordOf b2 b1)
  | .ldaImm => .ldaImm b1
  | .ldaZp => .ldaZp b1
  | .ldaZpX => .ldaZpX b1
  | .ldaAbs => .ldaAbs (wordOf b2 b1)
  | .ldaAbsX => .ldaAbsX (wordOf b2 b1)
  | .ldaAbsY => .ldaAbsY (wordOf b2 b1)

/-- The instruction that an opcode byte and the two bytes after it stand for; a byte the format does not use is not
looked at. Total: every byte has a descriptor (rule R56). -/
def decodeInstr (cfg : Config) (op b1 b2 : Byte) : Instr :=
  match classify cfg op with
  | .implemented f => f.build b1 b2
  | .halt => .halt op
  | .unimplemented => .unimplemented op

/-- The operand bytes an opcode byte asks for; it alone tells the length (rule R52). -/
def operandBytes (cfg : Config) (op : Byte) : Nat :=
  match classify cfg op with
  | .implemented f => f.format.operandBytes
  | .halt => Format.op.operandBytes
  | .unimplemented => Format.op.operandBytes

/-- Why a list of bytes is no instruction. In the machine neither occurs: memory has no end (rule R66). -/
inductive DecodeError where
  | noBytes
  | truncated (op : Byte)
deriving DecidableEq, Repr

/-- Decode the first instruction of a list of bytes, lowest address first, and return the bytes after it. -/
def decode (cfg : Config) : List Byte → Except DecodeError (Instr × List Byte)
  | [] => .error .noBytes
  | op :: rest =>
    match operandBytes cfg op, rest with
    | 0, r => .ok (decodeInstr cfg op 0 0, r)
    | 1, b1 :: r => .ok (decodeInstr cfg op b1 0, r)
    | 2, b1 :: b2 :: r => .ok (decodeInstr cfg op b1 b2, r)
    | _, _ => .error (.truncated op)

/-- The instruction the decoder reads, under the default configuration, from an instruction whose bits are `w`
numbered as spec/opcode_table.json numbers them, bits from `nbits` on being 0. -/
def decodeTableWord (nbits w : Nat) : Option Instr :=
  match decode Config.default [byteOfNat 0 (w % 2 ^ nbits), byteOfNat 1 (w % 2 ^ nbits), byteOfNat 2 (w % 2 ^ nbits)] with
  | .ok (i, _) => some i
  | .error _ => none

/-- The bytes of an instruction, lowest address first: `IMM8 = imm8 ++ opcode`, `ZP8 = zp ++ opcode`,
`ABS16 = addr[15:8] ++ addr[7:0] ++ opcode` (rule R51). -/
def encode : Instr → List Byte
  | .jsr t => [Form.jsr.opcode, loByte t, hiByte t]
  | .ldaImm v => [Form.ldaImm.opcode, v]
  | .ldaZp z => [Form.ldaZp.opcode, z]
  | .ldaZpX z => [Form.ldaZpX.opcode, z]
  | .ldaAbs w => [Form.ldaAbs.opcode, loByte w, hiByte w]
  | .ldaAbsX w => [Form.ldaAbsX.opcode, loByte w, hiByte w]
  | .ldaAbsY w => [Form.ldaAbsY.opcode, loByte w, hiByte w]
  | .halt op => [op]
  | .unimplemented op => [op]

end Sys2Proof
end

