-- ==== Sys2Proof/WellFormed.lean ====
section
/-! DEFINITION. Which configurations and which instructions are well formed, each failed check with a name of its own. -/

namespace Sys2Proof

/-- The ways a configuration breaks the bounds of rule R9. -/
inductive ConfigProblem where
  /-- `ZP_INDEXED_EXTRA` is neither 0 nor 1. -/
  | zpIndexedExtraTooLarge
  /-- `HALT_CYCLES` is 0 (decision D34). -/
  | haltCyclesZero
  /-- `SKIP_CYCLES` is 0 (decision D34). -/
  | skipCyclesZero
  /-- `HALT_OPCODE` names one of the seven implemented bytes. -/
  | haltOpcodeImplemented
  /-- `DISABLED_OPCODES` holds a byte that is not one of the seven (rule R57). -/
  | disabledNotImplemented
  /-- `INITIAL_IMAGE` is no canonical memory image of 65536 bytes (rule R29). -/
  | imageMalformed
deriving DecidableEq, Repr

/-- The first check of rule R9 that a configuration fails. -/
def Config.problem (cfg : Config) : Option ConfigProblem :=
  if 1 < cfg.zpIndexedExtra then some .zpIndexedExtraTooLarge
  else if cfg.haltCycles = 0 then some .haltCyclesZero
  else if cfg.skipCycles = 0 then some .skipCyclesZero
  else if cfg.haltOpcode.any (fun h => implementedOpcodes.contains h) then some .haltOpcodeImplemented
  else if !cfg.disabledOpcodes.all (fun b => implementedOpcodes.contains b) then some .disabledNotImplemented
  else if !(cfg.initialImage.all fun m => Machine.Memory.wf m) then some .imageMalformed
  else none

/-- A configuration that rule R9 admits. -/
def Config.wf (cfg : Config) : Bool := cfg.problem.isNone

/-- The ways an instruction is no instruction of the table under a configuration. -/
inductive InstrProblem where
  /-- An implemented form whose byte is disabled (rule R57). -/
  | formDisabled
  /-- An implemented form whose byte the configuration makes the halt opcode. -/
  | formIsHaltOpcode
  /-- A halt descriptor at a byte that `HALT_OPCODE` does not name (rule R58). -/
  | haltNotConfigured
  /-- An Unimplemented descriptor at a byte that has another one (rule R99). -/
  | byteHasDescriptor
deriving DecidableEq, Repr

/-- The check an instruction fails under a configuration. -/
def Instr.problem (cfg : Config) (i : Instr) : Option InstrProblem :=
  match i with
  | .halt op => if cfg.haltOpcode = some op then none else some .haltNotConfigured
  | .unimplemented op => if classify cfg op = .unimplemented then none else some .byteHasDescriptor
  | .jsr _ | .ldaImm _ | .ldaZp _ | .ldaZpX _ | .ldaAbs _ | .ldaAbsX _ | .ldaAbsY _ =>
    if cfg.haltOpcode = some i.opcode then some .formIsHaltOpcode
    else if cfg.disabledOpcodes.contains i.opcode then some .formDisabled
    else none

/-- An instruction of the table under a configuration. -/
def Instr.wf (cfg : Config) (i : Instr) : Bool := (i.problem cfg).isNone

end Sys2Proof
end

