-- ==== Sys2Proof/Machine/State.lean ====
section
/-! DEFINITION. The machine's state as plain data (rule R15 and R29), the reasons a step can stop, the results of a
step and of a run (rules R63, R109), the snapshot (rule R123), and the state after reset (rule R28). -/

namespace Sys2Proof.Machine

/-- The seven fields of the register file (rule R15), the memory (rule R29), and the parameters of rule R9, which no
step changes (log 1). -/
structure State where
  /-- Program counter (rule R20). -/
  pc : Addr
  /-- Stack pointer, an offset within page 1; it designates the next free stack byte (rule R21). -/
  sp : Byte
  /-- Accumulator (rule R17). -/
  a : Byte
  /-- Index register X (rule R18). -/
  x : Byte
  /-- Index register Y (rule R19). -/
  y : Byte
  /-- Status byte N7 V6 -5 B4 D3 I2 Z1 C0; bit 5 is always 0 (rules R22, R24). -/
  status : Byte
  /-- Cycle counter, unbounded and monotonic (rule R26). -/
  cycles : Nat
  /-- Memory, in canonical form (rule R29). -/
  mem : Memory
  /-- The parameters (rule R9), constant for the life of an instance. -/
  cfg : Config
deriving DecidableEq, Repr

/-- Why the machine stops with a fault. -/
inductive Fault where
  /-- `IllegalOpcode(opcode, pc)`, the one exception of the core (rule R102). Raised by the Unimplemented descriptor;
  the state is the one before the step (rule R104). Safe: the spec raises it at exactly these bytes. -/
  | illegalOpcode (opcode : Byte) (pc : Addr)
deriving DecidableEq, Repr

/-- Why the model rejects an instruction, a state, a configuration or a request by name. -/
inductive Refusal where
  /-- No meaning yet; raised by no arm of `exec` in this model. Safe. -/
  | notModelled (mnemonic : String)
  /-- A harness state with status bit 5 = 1, which rule R127 has a model refuse. Raised by `step`, `run`. Safe. -/
  | statusBit5Set
  /-- A configuration outside the bounds of rule R9. Raised by `step`, `run`. Safe. -/
  | badConfig (p : ConfigProblem)
  /-- A mode the resolver gives no arm (rule R82: the four extension points; NoOperand is never resolved), or a JSR
  descriptor with a mode that gives no address. Raised by `resolve` and `executeHandler`; no descriptor of the table
  reaches it. Safe. -/
  | unresolvableMode (m : Mode)
  /-- The ADC/SBC contract while flag D = 1 (rule R98). Raised by `unlessDecimal` of Flags.lean, which no
  opcode reaches. Safe. -/
  | decimalModeOpen
  /-- A core that was constructed and never reset (rule R16, decision D18). Raised by the operations of Lifecycle.lean.
  Safe. -/
  | notReset
deriving DecidableEq, Repr

/-- The flags of the status byte (rule R22). -/
inductive Flag where
  | n
  | v
  | b
  | d
  | i
  | z
  | c
deriving DecidableEq, Repr

/-- What the resolver returns: a value or an effective address (rule R71). -/
inductive Operand where
  | value (v : Byte)
  | address (ea : Addr)
deriving DecidableEq, Repr

/-- The reason of a halt (rule R109). -/
inductive HaltReason where
  | haltOpcode (opcode : Byte) (pc : Addr)
  | illegalOpcode (opcode : Byte) (pc : Addr)
deriving DecidableEq, Repr

/-- The result of a step (rule R63). -/
inductive StepResult where
  | stepped (consumed : Nat)
  | haltStep (reason : HaltReason)
  | fault (opcode : Byte) (pc : Addr)
deriving DecidableEq, Repr

/-- The result of a run (rule R109). -/
inductive RunResult where
  | completed (cyclesUsed : Nat)
  | halted (reason : HaltReason)
  | fault (opcode : Byte) (pc : Addr)
deriving DecidableEq, Repr

/-- The read-only snapshot of the register file (rule R123). -/
structure Snapshot where
  pc : Addr
  sp : Byte
  a : Byte
  x : Byte
  y : Byte
  status : Byte
  cycles : Nat
deriving DecidableEq, Repr

/-- The core under the host interface of rule R124: its parameters, and its state once it has been reset. -/
structure Emulator where
  params : Config
  core : Option State
deriving DecidableEq, Repr

/-- The state right after reset under the default parameters, with no image and no override: `pc` is the word at
0xFFFC of zeroed memory, 0x0000 (rules R28, R125, R126). -/
def State.reset : State where
  pc := 0x0000
  sp := 0xFF
  a := 0x00
  x := 0x00
  y := 0x00
  status := 0x00
  cycles := 0
  mem := Memory.zeroed
  cfg := Config.default

end Sys2Proof.Machine
end

