-- ==== Sys2Proof/Machine/Ops.lean ====
section
/-! DEFINITION. The named operations over registers and memory: memory access, the stack (rules R41 to R44), the
instruction stream (rule R66), cycles (rule R68), raising the one exception and the no-op that replaces it (rules R104,
R116), reset (rule R125), the admission of a state (rules R9, R127) and the snapshot (rule R123). -/

namespace Sys2Proof.Machine

/-- `MemRead(addr, 1)` (rule R12). -/
def State.readByte (s : State) (a : Addr) : Byte := Memory.readByte s.mem a

/-- `MemRead(addr, 2)` (rule R12). -/
def State.readWord (s : State) (a : Addr) : Addr := Memory.readWord s.mem a

/-- `MemWrite(addr, 1, v)` (rule R12). -/
def State.writeByte (s : State) (a : Addr) (v : Byte) : State := { s with mem := Memory.writeByte s.mem a v }

/-- `MemWrite(addr, 2, v)` (rule R12). -/
def State.writeWord (s : State) (a : Addr) (v : Addr) : State := { s with mem := Memory.writeWord s.mem a v }

/-- `pc <- target` (rule R11). -/
def State.setPc (s : State) (target : Addr) : State := { s with pc := target }

/-- Advance `pc` past `n` bytes of the instruction stream, wrapping modulo 65536 (rules R20, R66). -/
def State.advancePc (s : State) (n : Nat) : State := { s with pc := s.pc + BitVec.ofNat 16 n }

/-- `cycles <- cycles + n` (rules R26, R68). -/
def State.charge (s : State) (n : Nat) : State := { s with cycles := s.cycles + n }

/-- The address of the stack byte that an offset designates: `0x0100 + sp` (rules R21, R45). -/
def stackAddr (sp : Byte) : Addr := 0x0100 + zext16 sp

/-- `Push(v)`: write at `0x0100 + sp`, then decrement `sp` modulo 256 (rule R41). -/
def State.push (s : State) (v : Byte) : State := { s.writeByte (stackAddr s.sp) v with sp := s.sp - 1 }

/-- `Pop()`: increment `sp` modulo 256, then read at `0x0100 + sp` (rule R42). -/
def State.pop (s : State) : Byte × State := (s.readByte (stackAddr (s.sp + 1)), { s with sp := s.sp + 1 })

/-- `PushWord(v)`: the high byte first, then the low byte (rule R43). -/
def State.pushWord (s : State) (v : Addr) : State := (s.push (hiByte v)).push (loByte v)

/-- `PopWord()`: the low byte first, then the high byte (rule R44). -/
def State.popWord (s : State) : Addr × State :=
  let (lo, s1) := s.pop
  let (hi, s2) := s1.pop
  (wordOf hi lo, s2)

/-- `FetchByte()` (rule R66). -/
def State.fetchByte (s : State) : Byte × State := (s.readByte s.pc, s.advancePc 1)

/-- `FetchWord()`: the low byte first (rule R66). -/
def State.fetchWord (s : State) : Addr × State :=
  let (lo, s1) := s.fetchByte
  let (hi, s2) := s1.fetchByte
  (wordOf hi lo, s2)

/-- The instruction at `pc`; byte `k` of it is at `pc + k` modulo 65536 (rule R51). Reading has no side effect (rule
R38), so looking at all three bytes is the same as looking at those the format has. -/
def State.fetchInstr (s : State) : Instr :=
  decodeInstr s.cfg (s.readByte s.pc) (s.readByte (s.pc + 1)) (s.readByte (s.pc + 2))

/-- `raise IllegalOpcode(op, pc)`: control goes to the caller with the opcode byte and its address; nothing is saved
and no state changes (rules R99, R104, R107). -/
def raiseIllegalOpcode (op : Byte) (s : State) : Host.Outcome State Fault Refusal := .fault (.illegalOpcode op s.pc)

/-- `SkipSubstitute()`, the one-byte no-op with which the caller's `Skip` policy goes on after the exception (rule
R116). There is no return-from-trap instruction (rule R108). -/
def State.skipSubstitute (s : State) : State := (s.advancePc 1).charge s.cfg.skipCycles

/-- `reset(image, start)` (rule R125): the memory is the image given or zeros, and the vector is read after memory is
initialised. -/
def State.resetWith (cfg : Config) (image : Option Memory) (start : Option Addr) : State :=
  let mem := image.getD Memory.zeroed
  { pc := start.getD (Memory.readWord mem 0xFFFC)
    sp := 0xFF
    a := 0x00
    x := 0x00
    y := 0x00
    status := 0x00
    cycles := 0
    mem := mem
    cfg := cfg }

/-- Reset with the parameters' own image and override, the arguments' default values (rule R125). -/
def State.resetFrom (cfg : Config) : State := State.resetWith cfg cfg.initialImage cfg.startPc

/-- Why the model does not start from a state: a configuration outside rule R9, or status bit 5 set (rule R127). -/
def State.admission (s : State) : Option Refusal :=
  match s.cfg.problem with
  | some p => some (.badConfig p)
  | none => if s.status.getLsbD 5 then some .statusBit5Set else none

/-- The snapshot the host may take between steps (rule R123). -/
def State.snapshot (s : State) : Snapshot := ⟨s.pc, s.sp, s.a, s.x, s.y, s.status, s.cycles⟩

end Sys2Proof.Machine
end

