-- ==== Sys2Proof/Machine/Operands.lean ====
section
/-! DEFINITION. The addressing-mode resolver (rules R71 to R82). Each mode's result and extra cycles stand once, as a
function of the operand bits and the index register; `resolve` is the resolver of rule R71, which takes those bits from
the instruction stream, and `extraCycles` is the prediction of rule R81. -/

namespace Sys2Proof.Machine

/-- Immediate: the byte is the operand value (rule R73). -/
def immediateOperand (imm8 : Byte) : Operand × Nat := (.value imm8, 0)

/-- ZeroPage: the byte is an address in page 0 (rule R74). -/
def zeroPageOperand (zp : Byte) : Operand × Nat := (.address (zext16 zp), 0)

/-- ZeroPageX and ZeroPageY: the sum wraps within page 0, and the fixed extra cycle is always charged (rules R75,
R76). -/
def zeroPageIndexedOperand (cfg : Config) (zp index : Byte) : Operand × Nat :=
  (.address (zext16 (zp + index)), cfg.zpIndexedExtra)

/-- Absolute: the word is the address (rule R77). -/
def absoluteOperand (w : Addr) : Operand × Nat := (.address w, 0)

/-- The effective address of AbsoluteX and AbsoluteY, a 16-bit sum that may wrap past 0xFFFF (rules R78, R79). -/
def absoluteIndexedAddr (w : Addr) (index : Byte) : Addr := w + zext16 index

/-- AbsoluteX and AbsoluteY: one extra cycle on a page crossing or where the descriptor always penalizes (rules R78,
R79). -/
def absoluteIndexedOperand (alwaysPenalize : Bool) (w : Addr) (index : Byte) : Operand × Nat :=
  (.address (absoluteIndexedAddr w index),
    if alwaysPenalize || pageCross w (absoluteIndexedAddr w index) then 1 else 0)

/-- `Resolve(mode, always_penalize)` with `pc` at the first operand byte: the operand, the extra cycles, and the state
with `pc` after the last operand byte (rule R71). The extension points have no resolution (rule R82). -/
def resolve (mode : Mode) (alwaysPenalize : Bool) (s : State) : Except Refusal ((Operand × Nat) × State) :=
  match mode with
  | .immediate => .ok (immediateOperand s.fetchByte.1, s.fetchByte.2)
  | .zeroPage => .ok (zeroPageOperand s.fetchByte.1, s.fetchByte.2)
  | .zeroPageX => .ok (zeroPageIndexedOperand s.cfg s.fetchByte.1 s.x, s.fetchByte.2)
  | .zeroPageY => .ok (zeroPageIndexedOperand s.cfg s.fetchByte.1 s.y, s.fetchByte.2)
  | .absolute => .ok (absoluteOperand s.fetchWord.1, s.fetchWord.2)
  | .absoluteX => .ok (absoluteIndexedOperand alwaysPenalize s.fetchWord.1 s.x, s.fetchWord.2)
  | .absoluteY => .ok (absoluteIndexedOperand alwaysPenalize s.fetchWord.1 s.y, s.fetchWord.2)
  | .noOperand => .error (.unresolvableMode .noOperand)
  | .indirect => .error (.unresolvableMode .indirect)
  | .indirectX => .error (.unresolvableMode .indirectX)
  | .indirectY => .error (.unresolvableMode .indirectY)
  | .relative => .error (.unresolvableMode .relative)

/-- `ExtraCycles(mode, always_penalize, state)` with `pc` at the opcode byte, read from the state before the step (rule
R81); the extension points have none (rule R82). -/
def extraCycles (mode : Mode) (alwaysPenalize : Bool) (s : State) : Except Refusal Nat :=
  let w := wordOf (s.readByte (s.pc + 2)) (s.readByte (s.pc + 1))
  match mode with
  | .immediate => .ok 0
  | .zeroPage => .ok 0
  | .absolute => .ok 0
  | .noOperand => .ok 0
  | .zeroPageX => .ok s.cfg.zpIndexedExtra
  | .zeroPageY => .ok s.cfg.zpIndexedExtra
  | .absoluteX => .ok (if alwaysPenalize || hiByte w != hiByte (w + zext16 s.x) then 1 else 0)
  | .absoluteY => .ok (if alwaysPenalize || hiByte w != hiByte (w + zext16 s.y) then 1 else 0)
  | .indirect => .error (.unresolvableMode .indirect)
  | .indirectX => .error (.unresolvableMode .indirectX)
  | .indirectY => .error (.unresolvableMode .indirectY)
  | .relative => .error (.unresolvableMode .relative)

/-- The value an operand designates: itself, or the byte at the effective address (rule R83). -/
def State.operandValue (s : State) : Operand → Byte
  | .value v => v
  | .address ea => s.readByte ea

end Sys2Proof.Machine
end

