-- ==== Sys2Proof/Machine/Control.lean ====
section
/-! DEFINITION. Control transfer: JSR, the one such instruction of the table (rules R90 to R92). -/

namespace Sys2Proof.Machine

/-- JSR's effect with `pc` past the operand: push `pc - 1` as a word, then `pc <- target` (rule R90). -/
def State.jsrExecute (s : State) (target : Addr) : State := (s.pushWord (s.pc - 1)).setPc target

/-- `JSR $hhll` (rule R90): the target was read before the pushes; no flag is written. -/
def execJsr (target : Addr) (s : State) : Host.Outcome State Fault Refusal :=
  .next (((s.advancePc Form.jsr.length).jsrExecute target).charge (Form.jsr.descriptor.baseCycles + (absoluteOperand target).2))

end Sys2Proof.Machine
end

