-- ==== Sys2Proof/Machine/Flags.lean ====
section
/-! DEFINITION. The FlagEvaluator: the flag primitives (rules R93, R94), `updateNZ` (rule R95), and the extension
contract for carrying arithmetic (rules R97, R98), which no opcode of the table reaches. -/

namespace Sys2Proof.Machine

/-- The bit of a flag in the status byte (rule R22). -/
def Flag.bit : Flag → Nat
  | .n => 7
  | .v => 6
  | .b => 4
  | .d => 3
  | .i => 2
  | .z => 1
  | .c => 0

/-- The mask of a flag, `1 << bit` (rule R93). -/
def Flag.mask (f : Flag) : Byte := 1 <<< f.bit

/-- The value of a flag in a status byte. -/
def flag (f : Flag) (status : Byte) : Bool := status.getLsbD f.bit

/-- The mask that keeps bit 5 of the status byte 0 (rule R94). -/
def bit5Clear : Byte := 0xDF

/-- `SetFlag(f)` (rule R94). -/
def setFlag (f : Flag) (status : Byte) : Byte := (status ||| f.mask) &&& bit5Clear

/-- `ClearFlag(f)` (rule R94). -/
def clearFlag (f : Flag) (status : Byte) : Byte := (status &&& ~~~f.mask) &&& bit5Clear

/-- `ToggleFlag(f)` (rule R94). -/
def toggleFlag (f : Flag) (status : Byte) : Byte := (status ^^^ f.mask) &&& bit5Clear

/-- `WriteFlag(f, b)` (rule R94). -/
def writeFlag (f : Flag) (b : Bool) (status : Byte) : Byte := if b then setFlag f status else clearFlag f status

/-- `updateNZ(v)`: Z is `v = 0`, N is bit 7 of `v` (rule R95). -/
def updateNZ (v : Byte) (status : Byte) : Byte := writeFlag .n (v.getLsbD 7) (writeFlag .z (v == 0) status)

/-- `updateNZ(v)` on the status register. -/
def State.updateNZ (s : State) (v : Byte) : State := { s with status := Machine.updateNZ v s.status }

/-- `AddFlags(a, m, cin)`: the sum modulo 256 and the status byte with C the carry out of the 9-bit sum, V the signed
overflow, and N, Z of the result (rule R97). -/
def addFlags (a m : Byte) (cin : Bool) (status : Byte) : Byte × Byte :=
  let sum := a.toNat + m.toNat + cin.toNat
  let r := BitVec.ofNat 8 sum
  let overflow := ((a ^^^ r) &&& (m ^^^ r)).getLsbD 7
  (r, updateNZ r (writeFlag .v overflow (writeFlag .c (decide (255 < sum)) status)))

/-- `SubFlags(a, m, cin)`: the sum with the complement of `m`; C = 1 means no borrow (rule R97). -/
def subFlags (a m : Byte) (cin : Bool) (status : Byte) : Byte × Byte := addFlags a (m ^^^ 0xFF) cin status

/-- `CompareFlags(reg, m)`: C is the unsigned `reg >= m`, N and Z those of `reg - m`, V unchanged (rule R97). -/
def compareFlags (reg m : Byte) (status : Byte) : Byte := updateNZ (reg - m) (writeFlag .c (decide (m ≤ reg)) status)

/-- While D = 1 carrying arithmetic waits for `DECIMAL_MODE_BEHAVIOUR`, whose one value is OPEN: it is refused (rule
R98). While D = 0 it is the binary contract. -/
def unlessDecimal (mode : DecimalMode) (status : Byte) (binary : Byte × Byte) : Except Refusal (Byte × Byte) :=
  if flag .d status then
    match mode with
    | .leftOpen => .error .decimalModeOpen
  else .ok binary

/-- The ADC handler's contract with the carry flag as carry in (rules R97, R98). Attached to no opcode. -/
def adc (mode : DecimalMode) (a m status : Byte) : Except Refusal (Byte × Byte) :=
  unlessDecimal mode status (addFlags a m (flag .c status) status)

/-- The SBC handler's contract with the carry flag as carry in (rules R97, R98). Attached to no opcode. -/
def sbc (mode : DecimalMode) (a m status : Byte) : Except Refusal (Byte × Byte) :=
  unlessDecimal mode status (subFlags a m (flag .c status) status)

end Sys2Proof.Machine
end

