-- ==== Sys2Proof/Machine/Load.lean ====
section
/-! DEFINITION. The load family: LDA in its six forms (rules R83 to R89). -/

namespace Sys2Proof.Machine

/-- `LdaExecute(operand)`: `a` takes the resolved value, and N and Z are those of that value (rule R83). -/
def State.ldaExecute (s : State) (operand : Operand) : State :=
  let v := s.operandValue operand
  State.updateNZ { s with a := v } v

/-- One whole LDA step of a form whose operand resolves to `r`: `pc` past the instruction, the load, and the charge of
base plus extra cycles (rules R67, R68). -/
def completeLda (f : Form) (r : Operand × Nat) (s : State) : Host.Outcome State Fault Refusal :=
  .next (((s.advancePc f.length).ldaExecute r.1).charge (f.descriptor.baseCycles + r.2))

/-- `LDA #$nn` (rule R84). -/
def execLdaImm (imm8 : Byte) (s : State) : Host.Outcome State Fault Refusal :=
  completeLda .ldaImm (immediateOperand imm8) s

/-- `LDA $zz` (rule R85). -/
def execLdaZp (zp : Byte) (s : State) : Host.Outcome State Fault Refusal :=
  completeLda .ldaZp (zeroPageOperand zp) s

/-- `LDA $zz,X` (rule R86). -/
def execLdaZpX (zp : Byte) (s : State) : Host.Outcome State Fault Refusal :=
  completeLda .ldaZpX (zeroPageIndexedOperand s.cfg zp s.x) s

/-- `LDA $hhll` (rule R87). -/
def execLdaAbs (addr : Addr) (s : State) : Host.Outcome State Fault Refusal :=
  completeLda .ldaAbs (absoluteOperand addr) s

/-- `LDA $hhll,X` (rule R88). -/
def execLdaAbsX (addr : Addr) (s : State) : Host.Outcome State Fault Refusal :=
  completeLda .ldaAbsX (absoluteIndexedOperand Form.ldaAbsX.descriptor.alwaysPenalize addr s.x) s

/-- `LDA $hhll,Y` (rule R89). -/
def execLdaAbsY (addr : Addr) (s : State) : Host.Outcome State Fault Refusal :=
  completeLda .ldaAbsY (absoluteIndexedOperand Form.ldaAbsY.descriptor.alwaysPenalize addr s.y) s

end Sys2Proof.Machine
end

