-- ==== Sys2Proof/Machine/System.lean ====
section
/-! DEFINITION. The Unimplemented descriptor (rule R99) and the halt descriptor (rule R100). -/

namespace Sys2Proof.Machine

/-- The Unimplemented descriptor: `raise IllegalOpcode(op, pc)`, before any change of state (rules R99, R104). -/
def execUnimplemented (opcode : Byte) (s : State) : Host.Outcome State Fault Refusal := raiseIllegalOpcode opcode s

/-- The halt descriptor: the opcode fetch is committed and `HALT_CYCLES` charged, nothing else changes (rule R100).
That the step is a HaltStep is said by `stepReport`; the state after it is an ordinary state (rule R122). -/
def execHalt (_opcode : Byte) (s : State) : Host.Outcome State Fault Refusal :=
  .next ((s.advancePc 1).charge s.cfg.haltCycles)

end Sys2Proof.Machine
end

