-- ==== Sys2Proof/Machine/Step.lean ====
section
/-! DEFINITION. One step (rules R64 to R67), and the placing of an instruction where the next step fetches it. -/

namespace Sys2Proof.Machine

/-- One step: from an admitted state, the instruction at `pc` is decoded and run whole (rules R65, R67). A state that
rules R9 and R127 do not admit is refused by name. -/
def step (s : State) : Host.Outcome State Fault Refusal :=
  match s.admission with
  | some r => .refused r
  | none => exec s.fetchInstr s

/-- The state with the instruction whose bits are `w` at `pc`, numbered as spec/opcode_table.json numbers them: a
program that the host loads from outside (log 8). -/
def State.withFetchWord (s : State) (nbits w : Nat) : State :=
  ((s.writeByte s.pc (byteOfNat 0 (w % 2 ^ nbits))).writeByte (s.pc + 1) (byteOfNat 1 (w % 2 ^ nbits))).writeByte
    (s.pc + 2) (byteOfNat 2 (w % 2 ^ nbits))

end Sys2Proof.Machine
end

