-- ==== Sys2Proof/Machine/Engine.lean ====
section
/-! DEFINITION. The ExecutionEngine word for word: the step of rule R67 as its pseudocode writes it, over the
descriptor table, `Resolve` and `Execute`, with the result of rule R63. `step` of Step.lean decodes first and runs the
decoded instruction; that the two agree is a statement about the model. -/

namespace Sys2Proof.Machine

/-- `Execute(handler, operand)` for the two handlers that take an operand (rules R70, R83, R90). -/
def executeHandler (d : Descriptor) (operand : Operand) (s : State) : Except Refusal State :=
  match d.handler, operand with
  | .lda, o => .ok (s.ldaExecute o)
  | .jsr, .address target => .ok (s.jsrExecute target)
  | .jsr, .value _ => .error (.unresolvableMode d.mode)
  | .unimplemented, _ => .error (.unresolvableMode d.mode)
  | .halt, _ => .error (.unresolvableMode d.mode)

/-- The part of the step after the opcode fetch for a descriptor with an operand: resolve, execute, charge (rule
R67). -/
def engineComplete (d : Descriptor) (s : State) : Except Refusal (StepResult × State) :=
  match resolve d.mode d.alwaysPenalize s with
  | .error r => .error r
  | .ok ((operand, extra), s1) =>
    match executeHandler d operand s1 with
    | .error r => .error r
    | .ok s2 => .ok (.stepped (d.baseCycles + extra), s2.charge (d.baseCycles + extra))

/-- `step()` of rule R67, on an admitted state. -/
def engineStep (s : State) : Except Refusal (StepResult × State) :=
  match s.admission with
  | some r => .error r
  | none =>
    let op := s.readByte s.pc
    let d := table s.cfg op
    match d.handler with
    | .unimplemented => .ok (.fault op s.pc, s)
    | .halt => .ok (.haltStep (.haltOpcode op s.pc), (s.advancePc 1).charge d.baseCycles)
    | .lda => engineComplete d (s.advancePc 1)
    | .jsr => engineComplete d (s.advancePc 1)

end Sys2Proof.Machine
end

