-- ==== Sys2Proof/Machine/Run.lean ====
section
/-! DEFINITION. The result of a step (rule R63), the cost the next step would charge (rule R69), and the bounded run
loop with its fault policies (rules R109 to R116). -/

namespace Sys2Proof.Machine

/-- The result of a step beside the state after it (rule R63): the cycles an instruction consumed, the halt reason where
the halt descriptor ran, or the fault, after which the state is the one before (rule R104). -/
def stepReport (s : State) : Except Refusal (StepResult × State) :=
  match step s with
  | .next t =>
    match s.fetchInstr with
    | .halt op => .ok (.haltStep (.haltOpcode op s.pc), t)
    | .jsr _ | .ldaImm _ | .ldaZp _ | .ldaZpX _ | .ldaAbs _ | .ldaAbsX _ | .ldaAbsY _ | .unimplemented _ =>
      .ok (.stepped (t.cycles - s.cycles), t)
  | .fault (.illegalOpcode op pc) => .ok (.fault op pc, s)
  | .refused r => .error r

/-- `PredictCost`: the cost the next step would charge, computed without changing state, under the fault policy in
force (rule R69; the policy is the running call's, log 4). -/
def predictCost (policy : FaultPolicy) (s : State) : Except Refusal Nat :=
  let d := table s.cfg (s.readByte s.pc)
  match d.handler with
  | .unimplemented => .ok (if policy = .skip then s.cfg.skipCycles else 1)
  | .halt => .ok s.cfg.haltCycles
  | .lda | .jsr =>
    match extraCycles d.mode d.alwaysPenalize s with
    | .ok extra => .ok (d.baseCycles + extra)
    | .error r => .error r

/-- The loop of rule R110 from the cycles used so far. The first argument bounds the number of iterations; each one
uses at least one cycle of the budget (rule R111), so `budget + 1` of them are enough. -/
def runLoop : Nat → Nat → FaultPolicy → Nat → State → Except Refusal (RunResult × State)
  | 0, _, _, used, s => .ok (.completed used, s)
  | fuel + 1, budget, policy, used, s =>
    match predictCost policy s with
    | .error r => .error r
    | .ok cost =>
      if budget < used + cost then .ok (.completed used, s)
      else
        match stepReport s with
        | .error r => .error r
        | .ok (.stepped k, t) => runLoop fuel budget policy (used + k) t
        | .ok (.haltStep reason, t) => .ok (.halted reason, t)
        | .ok (.fault op pc, t) =>
          match policy with
          | .abort => .ok (.fault op pc, t)
          | .halt => .ok (.halted (.illegalOpcode op pc), t)
          | .skip => runLoop fuel budget policy (used + s.cfg.skipCycles) t.skipSubstitute

/-- `run(budget, policy)` (rule R110), refused on a state the model does not admit. -/
def runWith (budget : Nat) (policy : FaultPolicy) (s : State) : Except Refusal (RunResult × State) :=
  match s.admission with
  | some r => .error r
  | none => runLoop (budget + 1) budget policy 0 s

/-- `run(budget)` with the parameter `FAULT_POLICY` (rule R110). -/
def run (budget : Nat) (s : State) : Except Refusal (RunResult × State) := runWith budget s.cfg.faultPolicy s

end Sys2Proof.Machine
end

