-- ==== Sys2Proof/Machine/Lifecycle.lean ====
section
/-! DEFINITION. What the host may do to the core: construct, load an image, reset, step, run, take a snapshot (rules
R123, R124, R128). A core that was constructed and never reset is no state a model starts from (rule R16, decision
D18): every other use of it is refused by name. -/

namespace Sys2Proof.Machine

/-- Construct the core: its parameters, and no state yet (rules R124, R128). -/
def Emulator.construct (params : Config) : Emulator := ⟨params, none⟩

/-- Load a 65536-byte image before a reset: it is stored as `INITIAL_IMAGE` (rule R124). The core's state, if any, does
not change before the reset. -/
def Emulator.loadImage (image : Memory) (e : Emulator) : Emulator :=
  { e with params := { e.params with initialImage := some image } }

/-- Load an address-to-bytes overlay, applied over zeroed memory to form the image (rule R124, decision D16). -/
def Emulator.loadOverlay (cells : List (Addr × Byte)) (e : Emulator) : Emulator :=
  e.loadImage (Memory.ofOverlay cells)

/-- Reset, with the caller's override if one is given, else `START_PC` (rules R124, R125). -/
def Emulator.reset (start : Option Addr) (e : Emulator) : Emulator :=
  { e with core := some (State.resetWith e.params e.params.initialImage (start <|> e.params.startPc)) }

/-- Call `step` (rule R124). -/
def Emulator.step (e : Emulator) : Except Refusal (StepResult × Emulator) :=
  match e.core with
  | none => .error .notReset
  | some s =>
    match stepReport s with
    | .error r => .error r
    | .ok (res, t) => .ok (res, { e with core := some t })

/-- Call `run` with a budget and a fault policy (rule R124). -/
def Emulator.run (budget : Nat) (policy : FaultPolicy) (e : Emulator) : Except Refusal (RunResult × Emulator) :=
  match e.core with
  | none => .error .notReset
  | some s =>
    match runWith budget policy s with
    | .error r => .error r
    | .ok (res, t) => .ok (res, { e with core := some t })

/-- Take a snapshot of the register file (rule R123). -/
def Emulator.snapshot (e : Emulator) : Except Refusal Snapshot :=
  match e.core with
  | none => .error .notReset
  | some s => .ok s.snapshot

/-- Read a byte of the memory array (rule R123). -/
def Emulator.readMemory (e : Emulator) (a : Addr) : Except Refusal Byte :=
  match e.core with
  | none => .error .notReset
  | some s => .ok (s.readByte a)

end Sys2Proof.Machine
end

