-- ==== Sys2Proof/Safety.lean ====
section
/-! DEFINITION. What counts as a good state and a run, in the terms the statements use. -/

namespace Sys2Proof.Machine

/-- The states the spec's rules are stated for: memory in canonical form, a configuration that rule R9 admits, status
bit 5 = 0 (rules R24, R127). -/
structure State.Admitted (s : State) : Prop where
  memWf : Memory.wf s.mem = true
  cfgWf : s.cfg.wf = true
  bit5 : s.status.getLsbD 5 = false

/-- What holds in every state that instructions alone reach from reset: the index registers and the flags V, B, D, I
and C are 0 (rules R18, R19, R23). -/
structure State.Untouched (s : State) : Prop where
  x : s.x = 0
  y : s.y = 0
  flags : s.status &&& 0x7D = 0

/-- The status byte that `updateNZ(v)` leaves, by the closed formula of rule R95. -/
def nzStatus (v status : Byte) : Byte := (status &&& 0x7D) ||| (v &&& 0x80) ||| (if v = 0 then 0x02 else 0x00)

/-- The LDA forms. -/
def isLda : Instr → Bool
  | .ldaImm _ | .ldaZp _ | .ldaZpX _ | .ldaAbs _ | .ldaAbsX _ | .ldaAbsY _ => true
  | .jsr _ | .halt _ | .unimplemented _ => false

/-- The states that a core with the parameters `cfg` reaches from a reset with some image and override, by completed
steps and by the no-op that the `Skip` policy substitutes for a fault (rules R110, R116, R125). -/
inductive Reachable (cfg : Config) : State → Prop where
  | reset (image : Option Memory) (start : Option Addr) (h : image.all (fun m => Memory.wf m) = true) :
      Reachable cfg (State.resetWith cfg image start)
  | step {s t : State} : Reachable cfg s → Machine.step s = .next t → Reachable cfg t
  | skip {s : State} {op : Byte} {pc : Addr} : Reachable cfg s → Machine.step s = .fault (.illegalOpcode op pc) →
      Reachable cfg s.skipSubstitute

end Sys2Proof.Machine
end

