-- ==== Sys2Proof/Certificates/Slice0/Obligations.lean ====
section
/-! DEFINITION. The statements about the model, for the provers. Each docstring names the rules of spec/ it is about;
where one rests on a choice of the model's own, it names the log entry. -/

open Sys2Proof Sys2Proof.Machine

/-! ### Encoding, decoding and the instruction table -/

/-- Decoding the encoding of a well-formed instruction gives it back and leaves the bytes after it, under every
configuration (rules R51 to R54). -/
def Obligations.DecodeInvertsEncode : Prop :=
  ∀ (cfg : Config) (i : Instr) (rest : List Byte), i.wf cfg = true → decode cfg (encode i ++ rest) = .ok (i, rest)

/-- What the decoder reads is well formed, and its bytes are exactly the encoding of what is read: each word has one
meaning (rules R51 to R59). -/
def Obligations.DecodeReadsOnlyEncodings : Prop :=
  ∀ (cfg : Config) (bytes : List Byte) (i : Instr) (rest : List Byte),
    decode cfg bytes = .ok (i, rest) → i.wf cfg = true ∧ encode i ++ rest = bytes

/-- Length: the opcode byte alone tells it, 1 byte without an operand, 2 for Immediate and the zero-page modes, 3 for
the absolute modes and JSR (rule R52). -/
def Obligations.OpcodeByteFixesLength : Prop :=
  ∀ (cfg : Config) (op : Byte) (bytes : List Byte) (i : Instr) (rest : List Byte),
    decode cfg (op :: bytes) = .ok (i, rest) →
      (op :: bytes).length = i.length + rest.length ∧
        i.length =
          match (table cfg op).mode with
          | .noOperand => 1
          | .immediate | .zeroPage | .zeroPageX | .zeroPageY => 2
          | .absolute | .absoluteX | .absoluteY => 3
          | .indirect | .indirectX | .indirectY | .relative => 0

/-- The instruction table: its content for the default configuration, row by row, and the two ways in which a
configuration modifies it (rules R57, R58, R62). -/
def Obligations.InstructionTableContent : Prop :=
  (∀ op : Byte,
      table Config.default op =
        if op = 0x20 then ⟨0x20, .jsr, .absolute, .jsr, 6, false⟩
        else if op = 0xA9 then ⟨0xA9, .lda, .immediate, .lda, 2, false⟩
        else if op = 0xA5 then ⟨0xA5, .lda, .zeroPage, .lda, 3, false⟩
        else if op = 0xB5 then ⟨0xB5, .lda, .zeroPageX, .lda, 4, false⟩
        else if op = 0xAD then ⟨0xAD, .lda, .absolute, .lda, 4, false⟩
        else if op = 0xBD then ⟨0xBD, .lda, .absoluteX, .lda, 4, false⟩
        else if op = 0xB9 then ⟨0xB9, .lda, .absoluteY, .lda, 4, false⟩
        else ⟨op, .unimplemented, .noOperand, .unimplemented, 0, false⟩) ∧
    ∀ (cfg : Config) (op : Byte),
      cfg.wf = true →
        table cfg op =
          if cfg.haltOpcode = some op then ⟨op, .halt, .noOperand, .halt, cfg.haltCycles, false⟩
          else if op ∈ cfg.disabledOpcodes then ⟨op, .unimplemented, .noOperand, .unimplemented, 0, false⟩
          else table Config.default op

/-- Words written out bit by bit from the encodings of rules R51 and R54 decode to the instructions they stand for. -/
def Obligations.WrittenWordsDecode : Prop :=
  decodeTableWord 24 0b010000000000000000100000 = some (.jsr 0x4000) ∧
    decodeTableWord 16 0b0111111110101001 = some (.ldaImm 0x7F) ∧
    decodeTableWord 16 0b0001000010100101 = some (.ldaZp 0x10) ∧
    decodeTableWord 16 0b1111111110110101 = some (.ldaZpX 0xFF) ∧
    decodeTableWord 24 0b000100100011010010101101 = some (.ldaAbs 0x1234) ∧
    decodeTableWord 24 0b000100001111111110111101 = some (.ldaAbsX 0x10FF) ∧
    decodeTableWord 24 0b001000001000000010111001 = some (.ldaAbsY 0x2080) ∧
    decodeTableWord 8 0b00000010 = some (.unimplemented 0x02)

/-- A configuration is well formed exactly within the bounds of rule R9; that an image is a canonical list is the
model's form of a 65536-byte array (log 7). -/
def Obligations.ConfigurationBounds : Prop :=
  ∀ cfg : Config,
    cfg.wf = true ↔
      cfg.zpIndexedExtra ≤ 1 ∧ 1 ≤ cfg.haltCycles ∧ 1 ≤ cfg.skipCycles ∧
        (∀ h, cfg.haltOpcode = some h → h ∉ [0x20, 0xA9, 0xA5, 0xB5, 0xAD, 0xBD, 0xB9]) ∧
        (∀ b ∈ cfg.disabledOpcodes, b ∈ [0x20, 0xA9, 0xA5, 0xB5, 0xAD, 0xBD, 0xB9]) ∧
        ∀ m, cfg.initialImage = some m → Memory.wf m = true

/-! ### Memory and the stack -/

/-- A read returns the byte last written at that address, and a write changes no other address (rule R32). -/
def Obligations.ReadAfterWrite : Prop :=
  ∀ (m : Memory) (a b : Addr) (v : Byte),
    Memory.wf m = true → Memory.readByte (Memory.writeByte m a v) b = if b = a then v else Memory.readByte m b

/-- Word access is little-endian and the address of the high byte wraps modulo 65536 (rule R33). -/
def Obligations.WordAccessLittleEndianWraps : Prop :=
  ∀ (m : Memory) (a v : Addr),
    (Memory.readWord m a).toNat =
        256 * (Memory.readByte m (BitVec.ofNat 16 ((a.toNat + 1) % 65536))).toNat + (Memory.readByte m a).toNat ∧
      (Memory.wf m = true →
        (Memory.readByte (Memory.writeWord m a v) a).toNat = v.toNat % 256 ∧
          (Memory.readByte (Memory.writeWord m a v) (BitVec.ofNat 16 ((a.toNat + 1) % 65536))).toNat = v.toNat / 256 ∧
          ∀ b : Addr, b ≠ a → b.toNat ≠ (a.toNat + 1) % 65536 →
            Memory.readByte (Memory.writeWord m a v) b = Memory.readByte m b)

/-- The canonical form is canonical: two memories that read alike at every address are one memory. This is a property
of the model's form of memory (log 7). -/
def Obligations.EqualReadsEqualMemory : Prop :=
  ∀ m n : Memory,
    Memory.wf m = true → Memory.wf n = true → (∀ a : Addr, Memory.readByte m a = Memory.readByte n a) → m = n

/-- An overlay's image holds at each address the last byte the overlay gives it, and 0x00 elsewhere (rule R124; that
the last one stands is the model's choice, log 14). -/
def Obligations.OverlayImageReads : Prop :=
  ∀ (cells : List (Addr × Byte)) (a : Addr),
    Memory.readByte (Memory.ofOverlay cells) a =
      ((cells.reverse.find? fun c => c.1 == a).map Prod.snd).getD 0x00

/-- Push writes at `0x0100 + sp` and decrements `sp`; pop increments `sp` and reads there; both wrap within page 1 and
change nothing else (rules R41, R42, R45). -/
def Obligations.PushAndPopByte : Prop :=
  ∀ (s : State) (v : Byte),
    (stackAddr s.sp).toNat = 256 + s.sp.toNat ∧
      (s.push v).sp.toNat = (s.sp.toNat + 255) % 256 ∧
      (Memory.wf s.mem = true → (s.push v).readByte (stackAddr s.sp) = v) ∧
      (∀ b, b ≠ stackAddr s.sp → (s.push v).readByte b = s.readByte b) ∧
      s.push v = { s with sp := (s.push v).sp, mem := (s.push v).mem } ∧
      s.pop.2.sp.toNat = (s.sp.toNat + 1) % 256 ∧
      s.pop.1 = s.readByte (BitVec.ofNat 16 (256 + (s.sp.toNat + 1) % 256)) ∧
      s.pop.2 = { s with sp := s.pop.2.sp }

/-- A word push writes the high byte first and the low byte below it; with `sp >= 0x01` the word lies in memory in
little-endian order; `sp` decreases by 2 modulo 256 (rule R43). -/
def Obligations.PushWordLayout : Prop :=
  ∀ (s : State) (v : Addr),
    Memory.wf s.mem = true →
      s.pushWord v = (s.push (hiByte v)).push (loByte v) ∧
        (s.pushWord v).sp.toNat = (s.sp.toNat + 254) % 256 ∧
        (s.pushWord v).readByte (BitVec.ofNat 16 (256 + s.sp.toNat)) = hiByte v ∧
        (s.pushWord v).readByte (BitVec.ofNat 16 (256 + (s.sp.toNat + 255) % 256)) = loByte v ∧
        (1 ≤ s.sp.toNat → (s.pushWord v).readWord (BitVec.ofNat 16 (256 + s.sp.toNat - 1)) = v)

/-- A word pop reads the low byte first, and after a word push it returns the word and restores `sp`, across the page
wrap too (rule R44). -/
def Obligations.PopWordUndoesPushWord : Prop :=
  ∀ (s : State) (v : Addr),
    s.popWord = (wordOf s.pop.2.pop.1 s.pop.1, s.pop.2.pop.2) ∧
      (Memory.wf s.mem = true → (s.pushWord v).popWord.1 = v ∧ (s.pushWord v).popWord.2.sp = s.sp)

/-! ### Flags -/

/-- The masks, and the primitives: each changes only the bit of its own flag and keeps bit 5 at 0 (rules R93, R94). -/
def Obligations.FlagPrimitives : Prop :=
  (Flag.mask .n = 0x80 ∧ Flag.mask .v = 0x40 ∧ Flag.mask .b = 0x10 ∧ Flag.mask .d = 0x08 ∧ Flag.mask .i = 0x04 ∧
      Flag.mask .z = 0x02 ∧ Flag.mask .c = 0x01) ∧
    ∀ (f g : Flag) (b : Bool) (status : Byte),
      setFlag f status = (status ||| f.mask) &&& 0xDF ∧
        clearFlag f status = (status &&& ~~~f.mask) &&& 0xDF ∧
        toggleFlag f status = (status ^^^ f.mask) &&& 0xDF ∧
        flag g (setFlag f status) = (if g = f then true else flag g status) ∧
        flag g (clearFlag f status) = (if g = f then false else flag g status) ∧
        flag g (toggleFlag f status) = (if g = f then !flag g status else flag g status) ∧
        flag g (writeFlag f b status) = (if g = f then b else flag g status) ∧
        (setFlag f status).getLsbD 5 = false ∧ (clearFlag f status).getLsbD 5 = false ∧
        (toggleFlag f status).getLsbD 5 = false ∧ (writeFlag f b status).getLsbD 5 = false

/-- `updateNZ(v)`: Z is `v = 0`, N is bit 7 of `v`, the closed formula of the rule, and V, B, D, I, C and bit 5 as they
were (rule R95). -/
def Obligations.UpdateNZWritesExactlyNAndZ : Prop :=
  ∀ v status : Byte,
    status.getLsbD 5 = false →
      updateNZ v status = (status &&& 0x7D) ||| (v &&& 0x80) ||| (if v = 0 then 0x02 else 0x00) ∧
        flag .z (updateNZ v status) = decide (v = 0) ∧
        flag .n (updateNZ v status) = decide (v &&& 0x80 ≠ 0) ∧
        (∀ f : Flag, f ≠ .n → f ≠ .z → flag f (updateNZ v status) = flag f status) ∧
        (updateNZ v status).getLsbD 5 = false ∧
        ¬(flag .n (updateNZ v status) = true ∧ flag .z (updateNZ v status) = true)

/-- The extension contract AddFlags: the sum modulo 256, C the unsigned and V the signed overflow, N and Z of the
result, B, D, I as they were (rule R97; its formulas are marked general knowledge, log 13). -/
def Obligations.AddFlagsIsBinaryAddition : Prop :=
  ∀ (a m : Byte) (cin : Bool) (status : Byte),
    let out := addFlags a m cin status
    out.1.toNat = (a.toNat + m.toNat + cin.toNat) % 256 ∧
      (flag .c out.2 = true ↔ 255 < a.toNat + m.toNat + cin.toNat) ∧
      (flag .v out.2 = true ↔ a.toInt + m.toInt + cin.toNat < -128 ∨ 127 < a.toInt + m.toInt + cin.toNat) ∧
      (flag .n out.2 = true ↔ 128 ≤ out.1.toNat) ∧ (flag .z out.2 = true ↔ out.1 = 0) ∧
      flag .b out.2 = flag .b status ∧ flag .d out.2 = flag .d status ∧ flag .i out.2 = flag .i status

/-- The extension contracts SubFlags and CompareFlags: subtraction with borrow `1 - cin`, C = 1 where there is no
borrow, V the signed overflow of SBC and unchanged by a compare; ADC and SBC are refused while D = 1 (rules R97, R98;
log 13). -/
def Obligations.SubAndCompareFlagsContract : Prop :=
  ∀ (mode : DecimalMode) (a m : Byte) (cin : Bool) (status : Byte),
    let out := subFlags a m cin status
    let cmp := compareFlags a m status
    out.1.toNat = (a.toNat + 255 - m.toNat + cin.toNat) % 256 ∧
      (flag .c out.2 = true ↔ m.toNat + 1 ≤ a.toNat + cin.toNat) ∧
      (flag .v out.2 = true ↔
        a.toInt - m.toInt - 1 + cin.toNat < -128 ∨ 127 < a.toInt - m.toInt - 1 + cin.toNat) ∧
      (flag .n out.2 = true ↔ 128 ≤ out.1.toNat) ∧ (flag .z out.2 = true ↔ out.1 = 0) ∧
      (flag .c cmp = true ↔ m.toNat ≤ a.toNat) ∧ (flag .z cmp = true ↔ a = m) ∧
      (flag .n cmp = true ↔ 128 ≤ (a.toNat + 256 - m.toNat) % 256) ∧ flag .v cmp = flag .v status ∧
      (flag .d status = true →
        adc mode a m status = .error .decimalModeOpen ∧ sbc mode a m status = .error .decimalModeOpen) ∧
      (flag .d status = false →
        adc mode a m status = .ok (addFlags a m (flag .c status) status) ∧
          sbc mode a m status = .ok (subFlags a m (flag .c status) status))

/-! ### The addressing-mode resolver -/

/-- Immediate and the zero-page modes take one byte; the indexed sum wraps within page 0 and costs
`ZP_INDEXED_EXTRA`; no descriptor of the table uses ZeroPageY (rules R73 to R76). -/
def Obligations.ResolveOneByteModes : Prop :=
  (∀ (always : Bool) (s : State),
      let b := s.readByte s.pc
      let t := { s with pc := s.pc + 1 }
      resolve .immediate always s = .ok ((.value b, 0), t) ∧
        resolve .zeroPage always s = .ok ((.address (BitVec.ofNat 16 b.toNat), 0), t) ∧
        resolve .zeroPageX always s =
          .ok ((.address (BitVec.ofNat 16 ((b.toNat + s.x.toNat) % 256)), s.cfg.zpIndexedExtra), t) ∧
        resolve .zeroPageY always s =
          .ok ((.address (BitVec.ofNat 16 ((b.toNat + s.y.toNat) % 256)), s.cfg.zpIndexedExtra), t)) ∧
    ∀ (cfg : Config) (op : Byte), (table cfg op).mode ≠ .zeroPageY

/-- The absolute modes take a little-endian word, its second byte from 0x0000 after 0xFFFF; an indexed sum is 16 bits
wide and costs one cycle where its high byte differs from the base's or the descriptor always penalizes (rules R77 to
R80). -/
def Obligations.ResolveTwoByteModes : Prop :=
  ∀ (always : Bool) (s : State),
    let w := 256 * (s.readByte (BitVec.ofNat 16 ((s.pc.toNat + 1) % 65536))).toNat + (s.readByte s.pc).toNat
    let ea := fun index : Byte => (w + index.toNat) % 65536
    let extra := fun index : Byte => if always = true ∨ w / 256 ≠ ea index / 256 then 1 else 0
    let t := { s with pc := s.pc + 2 }
    resolve .absolute always s = .ok ((.address (BitVec.ofNat 16 w), 0), t) ∧
      resolve .absoluteX always s = .ok ((.address (BitVec.ofNat 16 (ea s.x)), extra s.x), t) ∧
      resolve .absoluteY always s = .ok ((.address (BitVec.ofNat 16 (ea s.y)), extra s.y), t)

/-- The four extension modes have no resolution and no extra cycles: each is refused by name, and no descriptor of the
table uses one (rule R82). -/
def Obligations.ExtensionModesRefused : Prop :=
  (∀ (m : Mode) (always : Bool) (s : State),
      m ∈ [Mode.indirect, .indirectX, .indirectY, .relative] →
        resolve m always s = .error (.unresolvableMode m) ∧ extraCycles m always s = .error (.unresolvableMode m)) ∧
    ∀ (cfg : Config) (op : Byte), (table cfg op).mode ∉ [Mode.indirect, .indirectX, .indirectY, .relative]

/-- ExtraCycles: its table, and that for every mode it is the extra that Resolve returns, evaluated on the state before
the step (rule R81). -/
def Obligations.ExtraCyclesPredictsResolve : Prop :=
  ∀ (always : Bool) (s : State),
    let w := wordOf (s.readByte (s.pc + 2)) (s.readByte (s.pc + 1))
    (∀ m ∈ [Mode.immediate, .zeroPage, .absolute, .noOperand], extraCycles m always s = .ok 0) ∧
      (∀ m ∈ [Mode.zeroPageX, .zeroPageY], extraCycles m always s = .ok s.cfg.zpIndexedExtra) ∧
      extraCycles .absoluteX always s =
        .ok (if always = true ∨ hiByte w ≠ hiByte (w + BitVec.ofNat 16 s.x.toNat) then 1 else 0) ∧
      extraCycles .absoluteY always s =
        .ok (if always = true ∨ hiByte w ≠ hiByte (w + BitVec.ofNat 16 s.y.toNat) then 1 else 0) ∧
      ∀ (m : Mode) (o : Operand) (e : Nat) (t : State),
        resolve m always { s with pc := s.pc + 1 } = .ok ((o, e), t) → extraCycles m always s = .ok e

/-! ### What each instruction does -/

/-- LDA Immediate completes with `a` the operand, N and Z from it, 2 cycles, and nothing else changed (rule R84). -/
def Obligations.LdaImmediateResult : Prop :=
  ∀ (s : State) (nn : Byte),
    s.status.getLsbD 5 = false →
      encode (.ldaImm nn) = [0xA9, nn] ∧
        exec (.ldaImm nn) s =
          .next { s with pc := s.pc + 2, a := nn, status := nzStatus nn s.status, cycles := s.cycles + 2 }

/-- LDA ZeroPage completes with the byte at 0x00zz, 3 cycles, and nothing else changed (rule R85). -/
def Obligations.LdaZeroPageResult : Prop :=
  ∀ (s : State) (zz : Byte),
    s.status.getLsbD 5 = false →
      let v := s.readByte (BitVec.ofNat 16 zz.toNat)
      encode (.ldaZp zz) = [0xA5, zz] ∧
        exec (.ldaZp zz) s =
          .next { s with pc := s.pc + 2, a := v, status := nzStatus v s.status, cycles := s.cycles + 3 }

/-- LDA ZeroPageX completes with the byte at `(zz + x) mod 256`, 4 + `ZP_INDEXED_EXTRA` cycles, and nothing else changed
(rule R86). -/
def Obligations.LdaZeroPageXResult : Prop :=
  ∀ (s : State) (zz : Byte),
    s.status.getLsbD 5 = false →
      let v := s.readByte (BitVec.ofNat 16 ((zz.toNat + s.x.toNat) % 256))
      encode (.ldaZpX zz) = [0xB5, zz] ∧
        exec (.ldaZpX zz) s =
          .next { s with pc := s.pc + 2, a := v, status := nzStatus v s.status, cycles := s.cycles + (4 + s.cfg.zpIndexedExtra) }

/-- LDA Absolute completes with the byte at the address, 4 cycles, and nothing else changed (rule R87). -/
def Obligations.LdaAbsoluteResult : Prop :=
  ∀ (s : State) (hhll : Addr),
    s.status.getLsbD 5 = false →
      let v := s.readByte hhll
      encode (.ldaAbs hhll) = [0xAD, loByte hhll, hiByte hhll] ∧
        exec (.ldaAbs hhll) s =
          .next { s with pc := s.pc + 3, a := v, status := nzStatus v s.status, cycles := s.cycles + 4 }

/-- LDA AbsoluteX completes with the byte at `(hhll + x) mod 65536`, 4 cycles or 5 where the high bytes differ, and
nothing else changed (rule R88). -/
def Obligations.LdaAbsoluteXResult : Prop :=
  ∀ (s : State) (hhll : Addr),
    s.status.getLsbD 5 = false →
      let ea := (hhll.toNat + s.x.toNat) % 65536
      let v := s.readByte (BitVec.ofNat 16 ea)
      encode (.ldaAbsX hhll) = [0xBD, loByte hhll, hiByte hhll] ∧
        exec (.ldaAbsX hhll) s =
          .next { s with
            pc := s.pc + 3, a := v, status := nzStatus v s.status,
            cycles := s.cycles + (if hhll.toNat / 256 = ea / 256 then 4 else 5) }

/-- LDA AbsoluteY completes with the byte at `(hhll + y) mod 65536`, 4 cycles or 5 where the high bytes differ, and
nothing else changed (rule R89). -/
def Obligations.LdaAbsoluteYResult : Prop :=
  ∀ (s : State) (hhll : Addr),
    s.status.getLsbD 5 = false →
      let ea := (hhll.toNat + s.y.toNat) % 65536
      let v := s.readByte (BitVec.ofNat 16 ea)
      encode (.ldaAbsY hhll) = [0xB9, loByte hhll, hiByte hhll] ∧
        exec (.ldaAbsY hhll) s =
          .next { s with
            pc := s.pc + 3, a := v, status := nzStatus v s.status,
            cycles := s.cycles + (if hhll.toNat / 256 = ea / 256 then 4 else 5) }

/-- Every LDA form completes: `a` takes the resolved value, the operand for Immediate and the byte at the effective
address otherwise; Z and N are those of the new `a`; `x`, `y`, `sp`, every byte of memory, the parameters and the flags
V, B, D, I, C stand (rule R83; `pc` and `cycles` are in the six results above). -/
def Obligations.LdaFrame : Prop :=
  ∀ (i : Instr) (s : State),
    isLda i = true →
      ∃ t, exec i s = .next t ∧
        (match i with
          | .ldaImm v => t.a = v
          | .ldaZp z => t.a = s.readByte (zext16 z)
          | .ldaZpX z => t.a = s.readByte (zext16 (z + s.x))
          | .ldaAbs w => t.a = s.readByte w
          | .ldaAbsX w => t.a = s.readByte (w + zext16 s.x)
          | .ldaAbsY w => t.a = s.readByte (w + zext16 s.y)
          | .jsr _ | .halt _ | .unimplemented _ => False) ∧
        (flag .z t.status = true ↔ t.a = 0) ∧ (flag .n t.status = true ↔ t.a &&& 0x80 ≠ 0) ∧
        t.x = s.x ∧ t.y = s.y ∧ t.sp = s.sp ∧ t.cfg = s.cfg ∧ (∀ b, t.readByte b = s.readByte b) ∧
        flag .v t.status = flag .v s.status ∧ flag .b t.status = flag .b s.status ∧
        flag .d t.status = flag .d s.status ∧ flag .i t.status = flag .i s.status ∧
        flag .c t.status = flag .c s.status

/-- JSR completes: `pc` is the target, the return address `pc - 1` (past the operand) is pushed high byte first, `sp`
decreases by 2, 6 cycles, no flag and no other register or byte of memory changes (rule R90). -/
def Obligations.JsrResult : Prop :=
  ∀ (s : State) (target : Addr),
    let ret := s.pc + 2
    encode (.jsr target) = [0x20, loByte target, hiByte target] ∧
      ∃ t, exec (.jsr target) s = .next t ∧
        t.pc = target ∧ t.sp.toNat = (s.sp.toNat + 254) % 256 ∧ t.a = s.a ∧ t.x = s.x ∧ t.y = s.y ∧
        t.status = s.status ∧ t.cfg = s.cfg ∧ t.cycles = s.cycles + 6 ∧
        (Memory.wf s.mem = true →
          t.readByte (stackAddr s.sp) = hiByte ret ∧ t.readByte (stackAddr (s.sp - 1)) = loByte ret) ∧
        ∀ b, b ≠ stackAddr s.sp → b ≠ stackAddr (s.sp - 1) → t.readByte b = s.readByte b

/-- The word a JSR pushes is the address of its own last byte, and a matching pop gives it back and restores `sp`
(rule R91). -/
def Obligations.JsrReturnAddressPops : Prop :=
  ∀ (s t : State) (target : Addr),
    Memory.wf s.mem = true → exec (.jsr target) s = .next t →
      t.popWord.1.toNat = (s.pc.toNat + 2) % 65536 ∧ t.popWord.2.sp = s.sp

/-- A step at a JSR jumps to the target its operand bytes hold before the step, also where the push overwrites them
(rules R49, R90, R130). -/
def Obligations.JsrTargetReadBeforePush : Prop :=
  ∀ s t : State, step s = .next t → s.readByte s.pc = 0x20 → t.pc = s.readWord (s.pc + 1)

/-- The halt descriptor completes: `pc + 1`, `HALT_CYCLES`, nothing else; the step reports HaltStep(HaltOpcode(h, pc)),
and a run with enough budget reports Halted with that reason (rule R100). -/
def Obligations.HaltOpcodeResult : Prop :=
  ∀ (s : State) (h : Byte) (budget : Nat) (policy : FaultPolicy),
    let t := { s with pc := s.pc + 1, cycles := s.cycles + s.cfg.haltCycles }
    exec (.halt h) s = .next t ∧
      (s.cfg.wf = true → s.status.getLsbD 5 = false → s.cfg.haltOpcode = some h → s.readByte s.pc = h →
        stepReport s = .ok (.haltStep (.haltOpcode h s.pc), t) ∧
          (s.cfg.haltCycles ≤ budget → runWith budget policy s = .ok (.halted (.haltOpcode h s.pc), t)))

/-- The Unimplemented descriptor always raises IllegalOpcode(op, pc). Its bytes are every byte that is neither one of
the seven of rule R54 nor the configured halt opcode, and each disabled one; a step there returns Fault(op, pc) and
leaves the state as it is (rules R56, R99). -/
def Obligations.UnimplementedRaisesIllegalOpcode : Prop :=
  (∀ (s : State) (op : Byte), exec (.unimplemented op) s = .fault (.illegalOpcode op s.pc)) ∧
    (∀ (cfg : Config) (op b1 b2 : Byte),
      cfg.wf = true →
        (decodeInstr cfg op b1 b2 = .unimplemented op ↔
          (op ∉ [0x20, 0xA9, 0xA5, 0xB5, 0xAD, 0xBD, 0xB9] ∧ cfg.haltOpcode ≠ some op) ∨ op ∈ cfg.disabledOpcodes)) ∧
    ∀ s : State,
      s.cfg.wf = true → s.status.getLsbD 5 = false →
        (s.readByte s.pc ∉ [0x20, 0xA9, 0xA5, 0xB5, 0xAD, 0xBD, 0xB9] ∧ s.cfg.haltOpcode ≠ some (s.readByte s.pc)) ∨
            s.readByte s.pc ∈ s.cfg.disabledOpcodes →
          stepReport s = .ok (.fault (s.readByte s.pc) s.pc, s)

/-! ### The step -/

/-- The bytes at `pc` always decode, and a step from an admitted state runs the decoded instruction. -/
def Obligations.StepRunsDecodedInstruction : Prop :=
  ∀ s : State,
    let bytes := [s.readByte s.pc, s.readByte (s.pc + 1), s.readByte (s.pc + 2)]
    (∃ i rest, decode s.cfg bytes = .ok (i, rest)) ∧
      ∀ (i : Instr) (rest : List Byte),
        s.cfg.wf = true → s.status.getLsbD 5 = false → decode s.cfg bytes = .ok (i, rest) → step s = exec i s

/-- An instruction placed where the next step fetches it is the one the next step runs (rule R49: a byte written is
fetched as written). -/
def Obligations.PlacedInstructionRuns : Prop :=
  ∀ (s : State) (nbits w : Nat) (i : Instr),
    Memory.wf s.mem = true → s.cfg = Config.default → s.status.getLsbD 5 = false →
      decodeTableWord nbits w = some i → step (s.withFetchWord nbits w) = exec i (s.withFetchWord nbits w)

/-- The model's step, which decodes first and then runs one meaning per instruction (the model's choice, log 10; its
report as a step result is log 5, its refusals log 6), and the step as rule R67 writes it, over the descriptor table,
Resolve and Execute, are one function, result and state. -/
def Obligations.StepRefinesEnginePseudocode : Prop :=
  ∀ s : State, stepReport s = engineStep s

/-- A state outside the spec is refused by name: status bit 5 set (rule R127, decision D19), or a configuration outside
the bounds of rule R9 (decision D34). That `step` is where the refusal happens, and that the configuration is looked at
before the status byte, is the model's choice (log 6). -/
def Obligations.InadmissibleStateRefused : Prop :=
  (∀ s : State, s.cfg.wf = true → s.status.getLsbD 5 = true → step s = .refused .statusBit5Set) ∧
    ∀ (s : State) (p : ConfigProblem), s.cfg.problem = some p → step s = .refused (.badConfig p)

/-- From an admitted state a step completes unless the byte at `pc` is Unimplemented, and then it faults with that byte
and its address; no other fault and no refusal occurs (rule R102). -/
def Obligations.FaultExactlyAtUnimplemented : Prop :=
  ∀ s : State,
    s.cfg.wf = true → s.status.getLsbD 5 = false →
      ((table s.cfg (s.readByte s.pc)).handler = .unimplemented →
          step s = .fault (.illegalOpcode (s.readByte s.pc) s.pc)) ∧
        ((table s.cfg (s.readByte s.pc)).handler ≠ .unimplemented → ∃ t, step s = .next t)

/-- After a step that returns Fault every register, `cycles` and all memory are as before, so that another step from
there faults again (rules R104, R108). -/
def Obligations.FaultChangesNothing : Prop :=
  ∀ (s t : State) (op : Byte) (pc : Addr),
    stepReport s = .ok (.fault op pc, t) →
      t = s ∧ op = s.readByte s.pc ∧ pc = s.pc ∧ stepReport t = .ok (.fault op pc, t)

/-- What a step consumes, by opcode: the table of rule R131, with `ZP_INDEXED_EXTRA` and `HALT_CYCLES` as configured;
what is consumed is added to `cycles` once, and a fault adds nothing (rule R68). -/
def Obligations.StepCycleCost : Prop :=
  ∀ (s t : State) (r : StepResult),
    stepReport s = .ok (r, t) →
      let op := s.readByte s.pc
      let w := (s.readWord (s.pc + 1)).toNat
      match r with
      | .stepped c =>
        t.cycles = s.cycles + c ∧ (op = 0x20 → c = 6) ∧ (op = 0xA9 → c = 2) ∧ (op = 0xA5 → c = 3) ∧
          (op = 0xB5 → c = 4 + s.cfg.zpIndexedExtra) ∧ (op = 0xAD → c = 4) ∧
          (op = 0xBD → c = if w / 256 = (w + s.x.toNat) % 65536 / 256 then 4 else 5) ∧
          (op = 0xB9 → c = if w / 256 = (w + s.y.toNat) % 65536 / 256 then 4 else 5) ∧
          op ∈ [0x20, 0xA9, 0xA5, 0xB5, 0xAD, 0xBD, 0xB9]
      | .haltStep _ => t.cycles = s.cycles + s.cfg.haltCycles ∧ s.cfg.haltOpcode = some op
      | .fault _ _ => t.cycles = s.cycles

/-- `PredictCost` is what the next step consumes, is at least 1, is defined in every state, and costs an Unimplemented
byte 1, or `SKIP_CYCLES` under the Skip policy (rule R69). Rule R69 reads the parameter `FAULT_POLICY`; that the policy
is an argument, the one of the running call, is the model's inference (log 4). -/
def Obligations.PredictCostIsExact : Prop :=
  ∀ (s : State) (policy : FaultPolicy),
    (∀ (c : Nat) (t : State), stepReport s = .ok (.stepped c, t) → predictCost policy s = .ok c) ∧
      (∀ (reason : HaltReason) (t : State),
        stepReport s = .ok (.haltStep reason, t) → predictCost policy s = .ok s.cfg.haltCycles) ∧
      (∀ (op : Byte) (pc : Addr) (t : State),
        stepReport s = .ok (.fault op pc, t) →
          predictCost policy s = .ok (if policy = .skip then s.cfg.skipCycles else 1)) ∧
      (s.cfg.wf = true → ∃ c, predictCost policy s = .ok c ∧ 1 ≤ c)

/-! ### Whole-machine rules -/

/-- The state after reset: memory is the image or zeros, `pc` the override or the vector read after memory is
initialised, `sp = 0xFF`, `a = x = y = 0`, `status = 0`, `cycles = 0`; the reset of the default parameters is
`State.reset` (rules R28, R125). -/
def Obligations.ResetValues : Prop :=
  (∀ (cfg : Config) (image : Option Memory) (start : Option Addr),
      let s := State.resetWith cfg image start
      s.mem = image.getD [] ∧
        s.pc = start.getD (wordOf (s.readByte 0xFFFD) (s.readByte 0xFFFC)) ∧
        s.sp = 0xFF ∧ s.a = 0 ∧ s.x = 0 ∧ s.y = 0 ∧ s.status = 0 ∧ s.cycles = 0) ∧
    (∀ cfg : Config, State.resetFrom cfg = State.resetWith cfg cfg.initialImage cfg.startPc) ∧
    State.reset = State.resetFrom Config.default ∧ ∀ a : Addr, State.reset.readByte a = 0x00

/-- The reset cases of rule R126: no image gives `pc = 0x0000`, where the first step returns Fault(0x00, 0x0000); the
vector 0x0200 in the image gives `pc = 0x0200`; the override 0x1000 goes before it. -/
def Obligations.ResetCases : Prop :=
  State.reset.pc = 0x0000 ∧
    stepReport State.reset = .ok (.fault 0x00 0x0000, State.reset) ∧
    (∀ (cfg : Config) (image : Memory),
      Memory.readByte image 0xFFFC = 0x00 → Memory.readByte image 0xFFFD = 0x02 →
        (State.resetWith cfg (some image) none).pc = 0x0200 ∧
          (State.resetWith cfg (some image) (some 0x1000)).pc = 0x1000) ∧
    ∀ (cfg : Config) (image : Option Memory) (start : Option Addr),
      let s := State.resetWith cfg image start
      s.sp = 0xFF ∧ s.a = 0 ∧ s.x = 0 ∧ s.y = 0 ∧ s.status = 0 ∧ s.cycles = 0

/-- The reset state is admitted, and so is every reset from a well-formed configuration and image. -/
def Obligations.ResetIsAdmitted : Prop :=
  State.reset.Admitted ∧
    ∀ (cfg : Config) (image : Option Memory) (start : Option Addr),
      cfg.wf = true → image.all (fun m => Memory.wf m) = true → (State.resetWith cfg image start).Admitted

/-- Every step keeps the invariant: memory in canonical form, the configuration within rule R9, status bit 5 = 0
(rules R24, R29); the no-op of the Skip policy keeps it too. -/
def Obligations.StepKeepsAdmitted : Prop :=
  (∀ s t : State, s.Admitted → step s = .next t → t.Admitted) ∧ ∀ s : State, s.Admitted → s.skipSubstitute.Admitted

/-- In every state reached from a reset with any image, under any policy, `x = y = 0` and V, B, D, I, C are 0, and the
state is admitted with the parameters it started with (rules R18, R19, R23). -/
def Obligations.ReachableStatesUntouched : Prop :=
  ∀ (cfg : Config) (s : State), cfg.wf = true → Reachable cfg s → s.Untouched ∧ s.Admitted ∧ s.cfg = cfg

/-- No instruction writes `x`, `y`, or the flags V, B, D, I, C, and none changes the parameters (rules R18, R19,
R23). -/
def Obligations.NoInstructionWritesIndexOrOtherFlags : Prop :=
  ∀ s t : State,
    step s = .next t →
      t.x = s.x ∧ t.y = s.y ∧ t.cfg = s.cfg ∧
        ∀ f ∈ [Flag.v, .b, .d, .i, .c], flag f t.status = flag f s.status

/-- `pc` changes only by sequential advance past the instruction, except by JSR, and `sp` and memory change only by JSR,
which decreases `sp` by 2 (rules R20, R21, R92, R130). -/
def Obligations.OnlyJsrTransfersAndStores : Prop :=
  ∀ s t : State,
    step s = .next t →
      (∃ target, s.fetchInstr = .jsr target ∧ t.pc = target ∧ t.sp = s.sp - 2) ∨
        ((∀ target, s.fetchInstr ≠ .jsr target) ∧
          t.pc.toNat = (s.pc.toNat + s.fetchInstr.length) % 65536 ∧ t.sp = s.sp ∧ t.mem = s.mem)

/-- Every byte outside the stack page 0x0100..0x01FF is the same after a step (rules R45, R130). -/
def Obligations.StepWritesOnlyStackPage : Prop :=
  ∀ (s t : State) (b : Addr),
    step s = .next t → b.toNat < 0x100 ∨ 0x1FF < b.toNat → t.readByte b = s.readByte b

/-- The cycle counter never wraps and never decreases: every completed step adds to it (rules R26, R118). -/
def Obligations.CyclesStrictlyIncrease : Prop :=
  ∀ s t : State, step s = .next t → s.cycles < t.cycles

/-! ### The run loop, fault policies and the host interface -/

/-- The run loop is the loop of rule R110: from `used` cycles on it tests the budget with the predicted cost, then
steps, then goes on, halts or applies the fault policy. That the predicted cost is taken under the running call's policy
is the model's inference (log 4); the bound on iterations is the model's form of the loop, and never shows (log 18). -/
def Obligations.RunIsTheLoop : Prop :=
  ∀ (budget used : Nat) (policy : FaultPolicy) (s : State),
    s.cfg.wf = true → s.status.getLsbD 5 = false → used ≤ budget →
      let loop := fun (u : Nat) (t : State) => runLoop (budget + 1 - u) budget policy u t
      runWith budget policy s = loop 0 s ∧
        loop used s =
          match predictCost policy s with
          | .error r => .error r
          | .ok cost =>
            if budget < used + cost then .ok (.completed used, s)
            else
              match stepReport s with
              | .error r => .error r
              | .ok (.stepped k, t) => loop (used + k) t
              | .ok (.haltStep reason, t) => .ok (.halted reason, t)
              | .ok (.fault op pc, t) =>
                match policy with
                | .abort => .ok (.fault op pc, t)
                | .halt => .ok (.halted (.illegalOpcode op pc), t)
                | .skip => loop (used + s.cfg.skipCycles) t.skipSubstitute

/-- `run` always returns, within `budget + 1` iterations of the loop (more change nothing), and on Completed(used) the
cycles used fit the budget while the next instruction's predicted cost does not (rule R111). The predicted cost is under
the running call's policy, which is the model's inference (log 4); the bound on iterations is the model's form of the
loop (log 18). -/
def Obligations.RunReturnsWithinBudget : Prop :=
  ∀ (budget extra : Nat) (policy : FaultPolicy) (s : State),
    s.cfg.wf = true → s.status.getLsbD 5 = false →
      ∃ (r : RunResult) (t : State),
        runWith budget policy s = .ok (r, t) ∧ runLoop (budget + 1 + extra) budget policy 0 s = .ok (r, t) ∧
          ∀ used, r = .completed used →
            used ≤ budget ∧ ∃ cost, predictCost policy t = .ok cost ∧ budget - used < cost

/-- `run` with budget 0 returns Completed(0) and changes nothing, in every admitted state and under every policy (rule
R112). -/
def Obligations.RunWithZeroBudget : Prop :=
  ∀ (policy : FaultPolicy) (s : State),
    s.cfg.wf = true → s.status.getLsbD 5 = false → runWith 0 policy s = .ok (.completed 0, s)

/-- Completed(used) reports the cycles consumed in this call, skipped no-ops included: `cycles` grew by exactly `used`
(rules R26, R110). -/
def Obligations.RunAccountsCycles : Prop :=
  ∀ (budget used : Nat) (policy : FaultPolicy) (s t : State),
    runWith budget policy s = .ok (.completed used, t) → t.cycles = s.cycles + used

/-- A run is resumable: a run that completed and a second run from where it stopped together give what one run gives
whose budget is the cycles used plus the second budget (rules R110, R113; with the budget test of log 4 and the bounded
loop of log 18). -/
def Obligations.RunIsResumable : Prop :=
  ∀ (b1 b2 u1 : Nat) (policy : FaultPolicy) (s t1 : State),
    s.cfg.wf = true → s.status.getLsbD 5 = false → runWith b1 policy s = .ok (.completed u1, t1) →
      runWith (u1 + b2) policy s =
        match runWith b2 policy t1 with
        | .ok (.completed u2, t2) => .ok (.completed (u1 + u2), t2)
        | .ok (.halted reason, t2) => .ok (.halted reason, t2)
        | .ok (.fault op pc, t2) => .ok (.fault op pc, t2)
        | .error r => .error r

/-- The fault policies at an Unimplemented byte that fits the budget: Abort returns the fault and Halt the halt reason,
with the state before the step; Skip goes on from a state in which only `pc` (by 1) and `cycles` (by `SKIP_CYCLES`)
differ (rules R114 to R116). What fits is told by rule R69, 1 cycle under Abort and Halt and `SKIP_CYCLES` under Skip;
that the policy it reads is the call's, whatever `FAULT_POLICY` is, is the model's inference (log 4). The loop that Skip
goes on with is bounded (log 18). -/
def Obligations.FaultPolicies : Prop :=
  ∀ (budget : Nat) (s : State),
    s.cfg.wf = true → s.status.getLsbD 5 = false →
      (table s.cfg (s.readByte s.pc)).handler = .unimplemented →
        (1 ≤ budget → runWith budget .abort s = .ok (.fault (s.readByte s.pc) s.pc, s)) ∧
          (1 ≤ budget → runWith budget .halt s = .ok (.halted (.illegalOpcode (s.readByte s.pc) s.pc), s)) ∧
          (s.cfg.skipCycles ≤ budget →
            runWith budget .skip s =
              runLoop budget budget .skip s.cfg.skipCycles
                { s with pc := s.pc + 1, cycles := s.cycles + s.cfg.skipCycles })

/-- The budget test comes before the step: an Unimplemented byte or a halt opcode that does not fit gives Completed, no
fault and no halt (rule R105). The cost of the byte is that of rule R69, under the call's policy; that it is the call's
and not the parameter's is the model's inference, and this boundary is where the two differ (log 4). -/
def Obligations.BudgetTestComesFirst : Prop :=
  ∀ (budget : Nat) (policy : FaultPolicy) (s : State),
    s.cfg.wf = true → s.status.getLsbD 5 = false →
      ((table s.cfg (s.readByte s.pc)).handler = .unimplemented →
          budget < (if policy = .skip then s.cfg.skipCycles else 1) →
          runWith budget policy s = .ok (.completed 0, s)) ∧
        ((table s.cfg (s.readByte s.pc)).handler = .halt → budget < s.cfg.haltCycles →
          runWith budget policy s = .ok (.completed 0, s))

/-- The host interface: a core that was never reset refuses step, run, snapshot and memory reads (decision D18; that a
snapshot is refused is log 16); after an image is loaded, a reset puts the core into the state of rule R125 with that
image, with the caller's override before `START_PC`; the snapshot is the seven registers (rules R123, R124). -/
def Obligations.HostInterface : Prop :=
  ∀ (params : Config) (image : Memory) (start : Option Addr) (budget : Nat) (policy : FaultPolicy) (a : Addr),
    let fresh := (Emulator.construct params).loadImage image
    fresh.step = .error .notReset ∧ fresh.run budget policy = .error .notReset ∧
      fresh.snapshot = .error .notReset ∧ fresh.readMemory a = .error .notReset ∧
      (fresh.reset start).core =
        some (State.resetWith { params with initialImage := some image } (some image) (start <|> params.startPc)) ∧
      (fresh.reset (some a)).snapshot = .ok ⟨a, 0xFF, 0, 0, 0, 0, 0⟩ ∧
      (fresh.reset start).readMemory a = .ok (Memory.readByte image a)
end

