-- ==== Sys2Proof/Laws/Bits.lean ====
section
/-! SUPPORT. Byte order and stack addresses. -/

namespace Sys2Proof

theorem wordOf_getLsbD (hi lo : Byte) (i : Nat) :
    (wordOf hi lo).getLsbD i = if i < 8 then lo.getLsbD i else hi.getLsbD (i - 8) :=
  BitVec.getLsbD_append

@[simp] theorem loByte_wordOf (hi lo : Byte) : loByte (wordOf hi lo) = lo := by
  ext i h
  simp [loByte, ← BitVec.getLsbD_eq_getElem, wordOf_getLsbD, h]

@[simp] theorem hiByte_wordOf (hi lo : Byte) : hiByte (wordOf hi lo) = hi := by
  ext i h
  simp [hiByte, ← BitVec.getLsbD_eq_getElem, wordOf_getLsbD, h]

@[simp] theorem wordOf_hiByte_loByte (v : Addr) : wordOf (hiByte v) (loByte v) = v := by
  unfold hiByte loByte wordOf
  ext i hi
  simp only [BitVec.getElem_append, BitVec.getElem_extractLsb']
  split
  · simp
    rfl
  · simp only [BitVec.getLsbD_eq_getElem hi, show 8 + (i - 8) = i by omega]

theorem Machine.stackAddr_toNat (sp : Byte) : (Machine.stackAddr sp).toNat = 256 + sp.toNat := by
  have := sp.isLt
  unfold Machine.stackAddr zext16
  rw [BitVec.toNat_add, BitVec.toNat_setWidth]
  simp
  omega

/-- Two stack bytes are one only if their offsets are (rule R45). -/
theorem Machine.stackAddr_inj {p q : Byte} : Machine.stackAddr p = Machine.stackAddr q ↔ p = q := by
  refine ⟨fun h => BitVec.eq_of_toNat_eq ?_, fun h => by rw [h]⟩
  have := congrArg BitVec.toNat h
  rw [Machine.stackAddr_toNat, Machine.stackAddr_toNat] at this
  omega

end Sys2Proof
end

