-- ==== Sys2Proof/Laws/Decode.lean ====
section
/-! SUPPORT. The opcode bytes and the classes of bytes. -/

namespace Sys2Proof

/-- Each form is found again from its opcode byte: no two rows share a byte. -/
@[simp] theorem formOf_opcode (f : Form) : formOf f.opcode = some f := by cases f <;> decide

/-- A byte that has a form is that form's opcode byte. -/
theorem opcode_of_formOf {op : Byte} {f : Form} (h : formOf op = some f) : f.opcode = op := by
  have := List.find?_some h
  simpa using this

/-- An implemented byte is the opcode byte of its form, neither halting nor disabled. -/
theorem classify_implemented {cfg : Config} {op : Byte} {f : Form} :
    classify cfg op = .implemented f ↔
      cfg.haltOpcode ≠ some op ∧ cfg.disabledOpcodes.contains op = false ∧ f.opcode = op := by
  unfold classify
  constructor
  · intro h
    split_ifs at h with h1 h2
    split at h
    · rename_i g hg
      cases h
      exact ⟨h1, by simpa using h2, opcode_of_formOf hg⟩
    · cases h
  · rintro ⟨h1, h2, rfl⟩
    rw [if_neg h1, h2, formOf_opcode]
    rfl

/-- The halting byte is the one the configuration names. -/
theorem classify_halt {cfg : Config} {op : Byte} : classify cfg op = .halt ↔ cfg.haltOpcode = some op := by
  unfold classify
  constructor
  · intro h
    split at h
    · assumption
    · split at h
      · cases h
      · split at h <;> cases h
  · intro h; simp [h]

end Sys2Proof
end

