-- ==== Sys2Proof/Laws/Flags.lean ====
section
/-! SUPPORT. Bit-level laws of the flag primitives and of `updateNZ`. -/

namespace Sys2Proof.Machine

/-- The primitives, bit by bit: the flag's own bit is written, bit 5 is cleared, the others stand. -/
theorem setFlag_getLsbD (f : Flag) (st : Byte) (i : Nat) :
    (setFlag f st).getLsbD i = ((st.getLsbD i || decide (i = f.bit)) && bit5Clear.getLsbD i) := by
  have h : i < 8 ∨ 8 ≤ i := by omega
  rcases h with h | h
  · cases f <;> simp [setFlag, Flag.mask, Flag.bit] <;> interval_cases i <;> simp
  · simp [BitVec.getLsbD_of_ge _ _ h]

theorem clearFlag_getLsbD (f : Flag) (st : Byte) (i : Nat) :
    (clearFlag f st).getLsbD i = ((st.getLsbD i && !decide (i = f.bit)) && bit5Clear.getLsbD i) := by
  have h : i < 8 ∨ 8 ≤ i := by omega
  rcases h with h | h
  · cases f <;> simp [clearFlag, Flag.mask, Flag.bit] <;> interval_cases i <;> simp
  · simp [BitVec.getLsbD_of_ge _ _ h]

theorem toggleFlag_getLsbD (f : Flag) (st : Byte) (i : Nat) :
    (toggleFlag f st).getLsbD i = ((st.getLsbD i ^^ decide (i = f.bit)) && bit5Clear.getLsbD i) := by
  have h : i < 8 ∨ 8 ≤ i := by omega
  rcases h with h | h
  · cases f <;> simp [toggleFlag, Flag.mask, Flag.bit] <;> interval_cases i <;> simp
  · simp [BitVec.getLsbD_of_ge _ _ h]

theorem writeFlag_getLsbD (f : Flag) (b : Bool) (st : Byte) (i : Nat) :
    (writeFlag f b st).getLsbD i = ((if i = f.bit then b else st.getLsbD i) && bit5Clear.getLsbD i) := by
  unfold writeFlag
  cases b
  · simp only [Bool.false_eq_true, if_false, clearFlag_getLsbD]
    by_cases h : i = f.bit <;> simp [h]
  · simp only [if_true, setFlag_getLsbD]
    by_cases h : i = f.bit <;> simp [h]

/-- `updateNZ`, bit by bit: bit 7 is bit 7 of the value, bit 1 says that it is zero, bit 5 is 0, the others stand. -/
theorem updateNZ_getLsbD (v st : Byte) (i : Nat) :
    (updateNZ v st).getLsbD i =
      if i = 7 then v.getLsbD 7 else if i = 1 then v == 0 else st.getLsbD i && bit5Clear.getLsbD i := by
  unfold updateNZ
  rw [writeFlag_getLsbD, writeFlag_getLsbD]
  have h : i < 8 ∨ 8 ≤ i := by omega
  rcases h with h | h
  · interval_cases i <;> simp [Flag.bit, bit5Clear]
  · have h7 : i ≠ 7 := by omega
    have h1 : i ≠ 1 := by omega
    simp [BitVec.getLsbD_of_ge _ _ h, h7, h1]

/-- Bit 5 is 0 after `updateNZ` (rule R94). -/
theorem updateNZ_bit5 (v st : Byte) : (updateNZ v st).getLsbD 5 = false := by
  rw [updateNZ_getLsbD]
  simp [bit5Clear]

end Sys2Proof.Machine
end

