-- ==== Sys2Proof/Laws/Memory.lean ====
section
/-! SUPPORT. The laws of memory: a read after a write, and that every memory operation keeps the canonical form. -/

namespace Sys2Proof.Machine

theorem Memory.wfFrom_cons {least k : Nat} {v : Byte} {m : Memory} :
    Memory.wfFrom least ((k, v) :: m) = true ↔
      least ≤ k ∧ k < memorySize ∧ v ≠ unlistedByte ∧ Memory.wfFrom (k + 1) m = true := by
  simp [Memory.wfFrom, and_assoc]

theorem Memory.wfFrom_mono {l l' : Nat} {m : Memory} (h : l ≤ l') (hm : Memory.wfFrom l' m = true) :
    Memory.wfFrom l m = true := by
  cases m with
  | nil => rfl
  | cons c m => rw [Memory.wfFrom_cons] at *; exact ⟨h.trans hm.1, hm.2⟩

/-- An address below every listed key reads as an unlisted address does. -/
theorem Memory.lookup_below {l a : Nat} {m : Memory} (hm : Memory.wfFrom l m = true) (h : a < l) :
    Memory.lookup m a = unlistedByte := by
  induction m generalizing l with
  | nil => rfl
  | cons c m ih =>
    obtain ⟨h1, -, -, h4⟩ := Memory.wfFrom_cons.1 hm
    rw [Memory.lookup, if_neg (by omega), ih h4 (by omega)]

theorem Memory.lookup_consCell_same {a : Nat} {v : Byte} {m : Memory} (h : Memory.lookup m a = unlistedByte) :
    Memory.lookup (Memory.consCell a v m) a = v := by
  unfold Memory.consCell
  split
  · simp_all
  · simp [Memory.lookup]

theorem Memory.lookup_consCell_other {a b : Nat} {v : Byte} {m : Memory} (h : b ≠ a) :
    Memory.lookup (Memory.consCell a v m) b = Memory.lookup m b := by
  unfold Memory.consCell
  split
  · rfl
  · simp [Memory.lookup, h.symm]

/-- A write leaves every other address alone, whatever the form of the list. -/
theorem Memory.lookup_store_other {m : Memory} {a b : Nat} {v : Byte} (h : b ≠ a) :
    Memory.lookup (Memory.store m a v) b = Memory.lookup m b := by
  induction m with
  | nil => exact Memory.lookup_consCell_other h
  | cons c m ih =>
    obtain ⟨k, w⟩ := c
    rw [Memory.store]
    split
    · exact Memory.lookup_consCell_other h
    · split
      · rw [Memory.lookup_consCell_other h, Memory.lookup, if_neg (by omega)]
      · simp only [Memory.lookup, ih]

/-- A read at the address of a write gives the value written. -/
theorem Memory.lookup_store_same {l : Nat} {m : Memory} {a : Nat} {v : Byte} (hm : Memory.wfFrom l m = true) :
    Memory.lookup (Memory.store m a v) a = v := by
  induction m generalizing l with
  | nil => exact Memory.lookup_consCell_same rfl
  | cons c m ih =>
    obtain ⟨k, w⟩ := c
    obtain ⟨h1, h2, h3, h4⟩ := Memory.wfFrom_cons.1 hm
    rw [Memory.store]
    split
    · exact Memory.lookup_consCell_same
        (Memory.lookup_below (l := k) (Memory.wfFrom_cons.2 ⟨le_rfl, h2, h3, h4⟩) (by omega))
    · split
      · exact Memory.lookup_consCell_same (Memory.lookup_below h4 (by omega))
      · rw [Memory.lookup, if_neg (by omega), ih h4]

theorem Memory.wfFrom_consCell {l a : Nat} {v : Byte} {m : Memory} (h : l ≤ a) (ha : a < memorySize)
    (hm : Memory.wfFrom (a + 1) m = true) : Memory.wfFrom l (Memory.consCell a v m) = true := by
  unfold Memory.consCell
  split
  · exact Memory.wfFrom_mono (by omega) hm
  · rename_i hv; exact Memory.wfFrom_cons.2 ⟨h, ha, hv, hm⟩

theorem Memory.wfFrom_store {l : Nat} {m : Memory} {a : Nat} {v : Byte} (hm : Memory.wfFrom l m = true) (h : l ≤ a)
    (ha : a < memorySize) : Memory.wfFrom l (Memory.store m a v) = true := by
  induction m generalizing l with
  | nil => exact Memory.wfFrom_consCell h ha rfl
  | cons c m ih =>
    obtain ⟨k, w⟩ := c
    obtain ⟨h1, h2, h3, h4⟩ := Memory.wfFrom_cons.1 hm
    rw [Memory.store]
    split
    · exact Memory.wfFrom_consCell h ha (Memory.wfFrom_cons.2 ⟨by omega, h2, h3, h4⟩)
    · split
      · exact Memory.wfFrom_consCell h ha (by subst_vars; exact h4)
      · exact Memory.wfFrom_cons.2 ⟨h1, h2, h3, ih h4 (by omega)⟩

/-- Writing a byte keeps the canonical form. -/
theorem Memory.wf_writeByte {m : Memory} (a : Addr) (v : Byte) (hm : Memory.wf m = true) :
    Memory.wf (Memory.writeByte m a v) = true :=
  Memory.wfFrom_store hm (Nat.zero_le _) a.isLt

/-- Writing a word keeps the canonical form. -/
theorem Memory.wf_writeWord {m : Memory} (a v : Addr) (hm : Memory.wf m = true) :
    Memory.wf (Memory.writeWord m a v) = true :=
  Memory.wf_writeByte _ _ (Memory.wf_writeByte _ _ hm)

theorem Memory.wf_zeroed : Memory.wf Memory.zeroed = true := rfl

theorem Memory.wf_foldl_writeByte (cells : List (Addr × Byte)) :
    ∀ {m : Memory}, Memory.wf m = true →
      Memory.wf (cells.foldl (fun m c => Memory.writeByte m c.1 c.2) m) = true := by
  induction cells with
  | nil => exact id
  | cons c cells ih => exact fun hm => ih (Memory.wf_writeByte _ _ hm)

/-- The image an overlay gives is in canonical form. -/
theorem Memory.wf_ofOverlay (cells : List (Addr × Byte)) : Memory.wf (Memory.ofOverlay cells) = true :=
  Memory.wf_foldl_writeByte cells Memory.wf_zeroed

theorem Memory.readByte_writeByte_same {m : Memory} (a : Addr) (v : Byte) (hm : Memory.wf m = true) :
    Memory.readByte (Memory.writeByte m a v) a = v :=
  Memory.lookup_store_same hm

theorem Memory.readByte_writeByte_other {m : Memory} {a b : Addr} (v : Byte) (h : b ≠ a) :
    Memory.readByte (Memory.writeByte m a v) b = Memory.readByte m b :=
  Memory.lookup_store_other (fun e => h (BitVec.eq_of_toNat_eq e))

end Sys2Proof.Machine
end

