-- ==== Sys2Proof/Laws/State.lean ====
section
/-! SUPPORT. One lemma per field per update of the state, true by rfl, so that no later proof unfolds a record
update. -/

namespace Sys2Proof.Machine

variable (s : State)

@[simp] theorem State.writeByte_pc (a : Addr) (v : Byte) : (s.writeByte a v).pc = s.pc := rfl
@[simp] theorem State.writeByte_sp (a : Addr) (v : Byte) : (s.writeByte a v).sp = s.sp := rfl
@[simp] theorem State.writeByte_a (a : Addr) (v : Byte) : (s.writeByte a v).a = s.a := rfl
@[simp] theorem State.writeByte_x (a : Addr) (v : Byte) : (s.writeByte a v).x = s.x := rfl
@[simp] theorem State.writeByte_y (a : Addr) (v : Byte) : (s.writeByte a v).y = s.y := rfl
@[simp] theorem State.writeByte_status (a : Addr) (v : Byte) : (s.writeByte a v).status = s.status := rfl
@[simp] theorem State.writeByte_cycles (a : Addr) (v : Byte) : (s.writeByte a v).cycles = s.cycles := rfl
@[simp] theorem State.writeByte_mem (a : Addr) (v : Byte) : (s.writeByte a v).mem = Memory.writeByte s.mem a v := rfl
@[simp] theorem State.writeByte_cfg (a : Addr) (v : Byte) : (s.writeByte a v).cfg = s.cfg := rfl

@[simp] theorem State.writeWord_pc (a v : Addr) : (s.writeWord a v).pc = s.pc := rfl
@[simp] theorem State.writeWord_sp (a v : Addr) : (s.writeWord a v).sp = s.sp := rfl
@[simp] theorem State.writeWord_a (a v : Addr) : (s.writeWord a v).a = s.a := rfl
@[simp] theorem State.writeWord_x (a v : Addr) : (s.writeWord a v).x = s.x := rfl
@[simp] theorem State.writeWord_y (a v : Addr) : (s.writeWord a v).y = s.y := rfl
@[simp] theorem State.writeWord_status (a v : Addr) : (s.writeWord a v).status = s.status := rfl
@[simp] theorem State.writeWord_cycles (a v : Addr) : (s.writeWord a v).cycles = s.cycles := rfl
@[simp] theorem State.writeWord_mem (a v : Addr) : (s.writeWord a v).mem = Memory.writeWord s.mem a v := rfl
@[simp] theorem State.writeWord_cfg (a v : Addr) : (s.writeWord a v).cfg = s.cfg := rfl

@[simp] theorem State.setPc_pc (t : Addr) : (s.setPc t).pc = t := rfl
@[simp] theorem State.setPc_sp (t : Addr) : (s.setPc t).sp = s.sp := rfl
@[simp] theorem State.setPc_a (t : Addr) : (s.setPc t).a = s.a := rfl
@[simp] theorem State.setPc_x (t : Addr) : (s.setPc t).x = s.x := rfl
@[simp] theorem State.setPc_y (t : Addr) : (s.setPc t).y = s.y := rfl
@[simp] theorem State.setPc_status (t : Addr) : (s.setPc t).status = s.status := rfl
@[simp] theorem State.setPc_cycles (t : Addr) : (s.setPc t).cycles = s.cycles := rfl
@[simp] theorem State.setPc_mem (t : Addr) : (s.setPc t).mem = s.mem := rfl
@[simp] theorem State.setPc_cfg (t : Addr) : (s.setPc t).cfg = s.cfg := rfl

@[simp] theorem State.advancePc_pc (n : Nat) : (s.advancePc n).pc = s.pc + BitVec.ofNat 16 n := rfl
@[simp] theorem State.advancePc_sp (n : Nat) : (s.advancePc n).sp = s.sp := rfl
@[simp] theorem State.advancePc_a (n : Nat) : (s.advancePc n).a = s.a := rfl
@[simp] theorem State.advancePc_x (n : Nat) : (s.advancePc n).x = s.x := rfl
@[simp] theorem State.advancePc_y (n : Nat) : (s.advancePc n).y = s.y := rfl
@[simp] theorem State.advancePc_status (n : Nat) : (s.advancePc n).status = s.status := rfl
@[simp] theorem State.advancePc_cycles (n : Nat) : (s.advancePc n).cycles = s.cycles := rfl
@[simp] theorem State.advancePc_mem (n : Nat) : (s.advancePc n).mem = s.mem := rfl
@[simp] theorem State.advancePc_cfg (n : Nat) : (s.advancePc n).cfg = s.cfg := rfl

@[simp] theorem State.charge_pc (n : Nat) : (s.charge n).pc = s.pc := rfl
@[simp] theorem State.charge_sp (n : Nat) : (s.charge n).sp = s.sp := rfl
@[simp] theorem State.charge_a (n : Nat) : (s.charge n).a = s.a := rfl
@[simp] theorem State.charge_x (n : Nat) : (s.charge n).x = s.x := rfl
@[simp] theorem State.charge_y (n : Nat) : (s.charge n).y = s.y := rfl
@[simp] theorem State.charge_status (n : Nat) : (s.charge n).status = s.status := rfl
@[simp] theorem State.charge_cycles (n : Nat) : (s.charge n).cycles = s.cycles + n := rfl
@[simp] theorem State.charge_mem (n : Nat) : (s.charge n).mem = s.mem := rfl
@[simp] theorem State.charge_cfg (n : Nat) : (s.charge n).cfg = s.cfg := rfl

@[simp] theorem State.push_pc (v : Byte) : (s.push v).pc = s.pc := rfl
@[simp] theorem State.push_sp (v : Byte) : (s.push v).sp = s.sp - 1 := rfl
@[simp] theorem State.push_a (v : Byte) : (s.push v).a = s.a := rfl
@[simp] theorem State.push_x (v : Byte) : (s.push v).x = s.x := rfl
@[simp] theorem State.push_y (v : Byte) : (s.push v).y = s.y := rfl
@[simp] theorem State.push_status (v : Byte) : (s.push v).status = s.status := rfl
@[simp] theorem State.push_cycles (v : Byte) : (s.push v).cycles = s.cycles := rfl
@[simp] theorem State.push_mem (v : Byte) : (s.push v).mem = Memory.writeByte s.mem (stackAddr s.sp) v := rfl
@[simp] theorem State.push_cfg (v : Byte) : (s.push v).cfg = s.cfg := rfl

@[simp] theorem State.pushWord_pc (v : Addr) : (s.pushWord v).pc = s.pc := rfl
@[simp] theorem State.pushWord_sp (v : Addr) : (s.pushWord v).sp = s.sp - 1 - 1 := rfl
@[simp] theorem State.pushWord_a (v : Addr) : (s.pushWord v).a = s.a := rfl
@[simp] theorem State.pushWord_x (v : Addr) : (s.pushWord v).x = s.x := rfl
@[simp] theorem State.pushWord_y (v : Addr) : (s.pushWord v).y = s.y := rfl
@[simp] theorem State.pushWord_status (v : Addr) : (s.pushWord v).status = s.status := rfl
@[simp] theorem State.pushWord_cycles (v : Addr) : (s.pushWord v).cycles = s.cycles := rfl
@[simp] theorem State.pushWord_mem (v : Addr) : (s.pushWord v).mem = Memory.writeByte (Memory.writeByte s.mem (stackAddr s.sp) (hiByte v)) (stackAddr (s.sp - 1)) (loByte v) := rfl
@[simp] theorem State.pushWord_cfg (v : Addr) : (s.pushWord v).cfg = s.cfg := rfl

@[simp] theorem State.updateNZ_pc (v : Byte) : (s.updateNZ v).pc = s.pc := rfl
@[simp] theorem State.updateNZ_sp (v : Byte) : (s.updateNZ v).sp = s.sp := rfl
@[simp] theorem State.updateNZ_a (v : Byte) : (s.updateNZ v).a = s.a := rfl
@[simp] theorem State.updateNZ_x (v : Byte) : (s.updateNZ v).x = s.x := rfl
@[simp] theorem State.updateNZ_y (v : Byte) : (s.updateNZ v).y = s.y := rfl
@[simp] theorem State.updateNZ_status (v : Byte) : (s.updateNZ v).status = Machine.updateNZ v s.status := rfl
@[simp] theorem State.updateNZ_cycles (v : Byte) : (s.updateNZ v).cycles = s.cycles := rfl
@[simp] theorem State.updateNZ_mem (v : Byte) : (s.updateNZ v).mem = s.mem := rfl
@[simp] theorem State.updateNZ_cfg (v : Byte) : (s.updateNZ v).cfg = s.cfg := rfl

@[simp] theorem State.ldaExecute_pc (o : Operand) : (s.ldaExecute o).pc = s.pc := rfl
@[simp] theorem State.ldaExecute_sp (o : Operand) : (s.ldaExecute o).sp = s.sp := rfl
@[simp] theorem State.ldaExecute_a (o : Operand) : (s.ldaExecute o).a = s.operandValue o := rfl
@[simp] theorem State.ldaExecute_x (o : Operand) : (s.ldaExecute o).x = s.x := rfl
@[simp] theorem State.ldaExecute_y (o : Operand) : (s.ldaExecute o).y = s.y := rfl
@[simp] theorem State.ldaExecute_status (o : Operand) : (s.ldaExecute o).status = Machine.updateNZ (s.operandValue o) s.status := rfl
@[simp] theorem State.ldaExecute_cycles (o : Operand) : (s.ldaExecute o).cycles = s.cycles := rfl
@[simp] theorem State.ldaExecute_mem (o : Operand) : (s.ldaExecute o).mem = s.mem := rfl
@[simp] theorem State.ldaExecute_cfg (o : Operand) : (s.ldaExecute o).cfg = s.cfg := rfl

@[simp] theorem State.jsrExecute_pc (t : Addr) : (s.jsrExecute t).pc = t := rfl
@[simp] theorem State.jsrExecute_sp (t : Addr) : (s.jsrExecute t).sp = s.sp - 1 - 1 := rfl
@[simp] theorem State.jsrExecute_a (t : Addr) : (s.jsrExecute t).a = s.a := rfl
@[simp] theorem State.jsrExecute_x (t : Addr) : (s.jsrExecute t).x = s.x := rfl
@[simp] theorem State.jsrExecute_y (t : Addr) : (s.jsrExecute t).y = s.y := rfl
@[simp] theorem State.jsrExecute_status (t : Addr) : (s.jsrExecute t).status = s.status := rfl
@[simp] theorem State.jsrExecute_cycles (t : Addr) : (s.jsrExecute t).cycles = s.cycles := rfl
@[simp] theorem State.jsrExecute_mem (t : Addr) : (s.jsrExecute t).mem = Memory.writeByte (Memory.writeByte s.mem (stackAddr s.sp) (hiByte (s.pc - 1))) (stackAddr (s.sp - 1)) (loByte (s.pc - 1)) := rfl
@[simp] theorem State.jsrExecute_cfg (t : Addr) : (s.jsrExecute t).cfg = s.cfg := rfl

@[simp] theorem State.skipSubstitute_pc : (s.skipSubstitute).pc = s.pc + BitVec.ofNat 16 1 := rfl
@[simp] theorem State.skipSubstitute_sp : (s.skipSubstitute).sp = s.sp := rfl
@[simp] theorem State.skipSubstitute_a : (s.skipSubstitute).a = s.a := rfl
@[simp] theorem State.skipSubstitute_x : (s.skipSubstitute).x = s.x := rfl
@[simp] theorem State.skipSubstitute_y : (s.skipSubstitute).y = s.y := rfl
@[simp] theorem State.skipSubstitute_status : (s.skipSubstitute).status = s.status := rfl
@[simp] theorem State.skipSubstitute_cycles : (s.skipSubstitute).cycles = s.cycles + s.cfg.skipCycles := rfl
@[simp] theorem State.skipSubstitute_mem : (s.skipSubstitute).mem = s.mem := rfl
@[simp] theorem State.skipSubstitute_cfg : (s.skipSubstitute).cfg = s.cfg := rfl

@[simp] theorem State.readByte_eq (a : Addr) : s.readByte a = Memory.readByte s.mem a := rfl

end Sys2Proof.Machine
end

