-- ==== Sys2Proof/Laws/Ops.lean ====
section
/-! SUPPORT. What each shared operation can do, said once: admission, the canonical form under the stack operations,
the inversion of `exec` and of `step`. -/

namespace Sys2Proof.Machine

variable {s t : State}

/-- A state is admitted exactly when its configuration is and status bit 5 is 0. -/
theorem State.admission_none : s.admission = none ↔ s.cfg.wf = true ∧ s.status.getLsbD 5 = false := by
  unfold State.admission Config.wf
  cases s.cfg.problem <;> simp

/-- An admitted state runs the instruction at `pc`. -/
theorem step_of_admitted (hc : s.cfg.wf = true) (hb : s.status.getLsbD 5 = false) : step s = exec s.fetchInstr s := by
  simp only [step, State.admission_none.2 ⟨hc, hb⟩]

/-- A step that does not refuse starts from an admitted state and runs the instruction at `pc`. -/
theorem step_next (h : step s = .next t) :
    s.cfg.wf = true ∧ s.status.getLsbD 5 = false ∧ exec s.fetchInstr s = .next t := by
  unfold step at h
  split at h
  · cases h
  · rename_i ha
    obtain ⟨hc, hb⟩ := State.admission_none.1 ha
    exact ⟨hc, hb, h⟩

theorem State.push_wf {v : Byte} (h : Memory.wf s.mem = true) : Memory.wf (s.push v).mem = true :=
  Memory.wf_writeByte _ _ h

theorem State.pushWord_wf {v : Addr} (h : Memory.wf s.mem = true) : Memory.wf (s.pushWord v).mem = true :=
  State.push_wf (State.push_wf h)

/-- All an instruction can do when it answers a next state: a load of one of the six forms, the call, or the halt
descriptor. -/
theorem exec_next {i : Instr} (h : exec i s = .next t) :
    (∃ (f : Form) (o : Operand) (e : Nat), f ≠ .jsr ∧ i.length = f.length ∧
        t = ((s.advancePc f.length).ldaExecute o).charge (f.descriptor.baseCycles + e)) ∨
      (∃ target, i = .jsr target ∧ t = ((s.advancePc 3).jsrExecute target).charge 6) ∨
      (∃ op, i = .halt op ∧ t = (s.advancePc 1).charge s.cfg.haltCycles) := by
  cases i with
  | jsr target => cases h; exact .inr (.inl ⟨target, rfl, rfl⟩)
  | ldaImm v => cases h; exact .inl ⟨.ldaImm, _, _, by decide, rfl, rfl⟩
  | ldaZp z => cases h; exact .inl ⟨.ldaZp, _, _, by decide, rfl, rfl⟩
  | ldaZpX z => cases h; exact .inl ⟨.ldaZpX, _, _, by decide, rfl, rfl⟩
  | ldaAbs w => cases h; exact .inl ⟨.ldaAbs, _, _, by decide, rfl, rfl⟩
  | ldaAbsX w => cases h; exact .inl ⟨.ldaAbsX, _, _, by decide, rfl, rfl⟩
  | ldaAbsY w => cases h; exact .inl ⟨.ldaAbsY, _, _, by decide, rfl, rfl⟩
  | halt op => cases h; exact .inr (.inr ⟨op, rfl, rfl⟩)
  | unimplemented op => cases h

/-- The only fault is that of the Unimplemented descriptor. -/
theorem exec_fault {i : Instr} {r : Fault} (h : exec i s = .fault r) :
    ∃ op, i = .unimplemented op ∧ r = .illegalOpcode op s.pc := by
  cases i with
  | unimplemented op => cases h; exact ⟨op, rfl, rfl⟩
  | _ => cases h

/-- No meaning refuses. -/
theorem exec_ne_refused {i : Instr} {r : Refusal} : exec i s ≠ .refused r := by
  cases i <;> exact nofun

end Sys2Proof.Machine
end

