-- ==== Sys2Proof/Laws/PerInstr.lean ====
section
/-! SUPPORT. Per-instruction laws of the family `EncodeLength`: an instruction's encoding starts with its opcode byte
and is as long as its format says (rules R51, R52). -/

namespace Sys2Proof.Laws.EncodeLength

/-- The statement about one instruction. -/
def Statement (i : Instr) : Prop := (encode i).head? = some i.opcode ∧ (encode i).length = i.length

theorem jsr (target : Addr) : Statement (.jsr target) := ⟨rfl, rfl⟩
theorem ldaImm (imm8 : Byte) : Statement (.ldaImm imm8) := ⟨rfl, rfl⟩
theorem ldaZp (zp : Byte) : Statement (.ldaZp zp) := ⟨rfl, rfl⟩
theorem ldaZpX (zp : Byte) : Statement (.ldaZpX zp) := ⟨rfl, rfl⟩
theorem ldaAbs (addr : Addr) : Statement (.ldaAbs addr) := ⟨rfl, rfl⟩
theorem ldaAbsX (addr : Addr) : Statement (.ldaAbsX addr) := ⟨rfl, rfl⟩
theorem ldaAbsY (addr : Addr) : Statement (.ldaAbsY addr) := ⟨rfl, rfl⟩
theorem halt (opcode : Byte) : Statement (.halt opcode) := ⟨rfl, rfl⟩
theorem unimplemented (opcode : Byte) : Statement (.unimplemented opcode) := ⟨rfl, rfl⟩

end Sys2Proof.Laws.EncodeLength
end

