-- ==== Sys2Proof/Tests/Slice0.lean ====
section
/-! SUPPORT. The model's own tests. Every expected value comes from spec/: the vectors of 95_test_vectors.md, cited by
their ids, or an encoding written out from rules R51 and R54. Last, for each statement with hypotheses, concrete data
that meets all of them together. -/

namespace Sys2Proof.Tests

open Sys2Proof Sys2Proof.Machine

/-! ### Ill-formed terms, each refused by the check it is for -/

theorem test_default_config_wf : Config.default.wf = true := by decide

theorem test_zp_extra_two_refused : ({ zpIndexedExtra := 2 } : Config).problem = some .zpIndexedExtraTooLarge := by decide

theorem test_halt_cycles_zero_refused : ({ haltCycles := 0 } : Config).problem = some .haltCyclesZero := by decide

theorem test_skip_cycles_zero_refused : ({ skipCycles := 0 } : Config).problem = some .skipCyclesZero := by decide

theorem test_halt_opcode_lda_refused : ({ haltOpcode := some 0xA9 } : Config).problem = some .haltOpcodeImplemented := by
  decide

theorem test_disabled_nop_refused : ({ disabledOpcodes := [0xA9, 0xEA] } : Config).problem = some .disabledNotImplemented := by
  decide

/-- An image with a listed zero byte is not canonical; nor is one with an address past 0xFFFF, or two in falling
order. -/
theorem test_image_malformed_refused :
    ({ initialImage := some [(0, 0x00)] } : Config).problem = some .imageMalformed ∧
      ({ initialImage := some [(65536, 0x01)] } : Config).problem = some .imageMalformed ∧
      ({ initialImage := some [(2, 0x01), (1, 0x01)] } : Config).problem = some .imageMalformed := by
  decide

theorem test_form_disabled_refused :
    (Instr.ldaImm 0x05).problem { disabledOpcodes := [0xA9] } = some .formDisabled := by decide

theorem test_form_at_halt_opcode_refused :
    (Instr.jsr 0x4000).problem { haltOpcode := some 0x20 } = some .formIsHaltOpcode := by decide

theorem test_halt_not_configured_refused : (Instr.halt 0xDB).problem Config.default = some .haltNotConfigured := by decide

theorem test_unimplemented_lda_refused : (Instr.unimplemented 0xA9).problem Config.default = some .byteHasDescriptor := by
  decide

theorem test_decode_no_bytes : (decode Config.default []).toOption = none := by decide

theorem test_decode_truncated :
    decode Config.default [0xAD, 0x34] = .error (.truncated 0xAD) ∧
      decode Config.default [0xA9] = .error (.truncated 0xA9) := by
  exact ⟨rfl, rfl⟩

/-! ### Decoding of words written out from rules R51 and R54 -/

theorem test_word_jsr : decodeTableWord 24 0b010000000000000000100000 = some (.jsr 0x4000) := by decide

theorem test_word_lda_imm : decodeTableWord 16 0b1000000010101001 = some (.ldaImm 0x80) := by decide

theorem test_word_lda_zp : decodeTableWord 16 0b1111111110100101 = some (.ldaZp 0xFF) := by decide

theorem test_word_lda_zpx : decodeTableWord 16 0b0001000010110101 = some (.ldaZpX 0x10) := by decide

theorem test_word_lda_abs : decodeTableWord 24 0b000100100011010010101101 = some (.ldaAbs 0x1234) := by decide

theorem test_word_lda_absx : decodeTableWord 24 0b000100001111111110111101 = some (.ldaAbsX 0x10FF) := by decide

theorem test_word_lda_absy : decodeTableWord 24 0b001000001000000010111001 = some (.ldaAbsY 0x2080) := by decide

theorem test_word_unimplemented : decodeTableWord 8 0b11101010 = some (.unimplemented 0xEA) := by decide

theorem test_bytes_halt : decode { haltOpcode := some 0xDB } [0xDB, 0x01] = .ok (.halt 0xDB, [0x01]) := rfl

theorem test_bytes_jsr : decode Config.default [0x20, 0x00, 0x40, 0xA9] = .ok (.jsr 0x4000, [0xA9]) := rfl

theorem test_encode_jsr : encode (.jsr 0x4000) = [0x20, 0x00, 0x40] := by decide

theorem test_encode_lda_absy : encode (.ldaAbsY 0x2080) = [0xB9, 0x80, 0x20] := by decide

/-! ### One step on a small state -/

/-- A state in the notation of 95_test_vectors.md, with the memory bytes listed. -/
def mk (pc : Addr) (sp a x y status : Byte) (cycles : Nat) (cells : List (Addr × Byte)) (cfg : Config := {}) : State :=
  ⟨pc, sp, a, x, y, status, cycles, Memory.ofOverlay cells, cfg⟩

/-- What a step leaves in the registers, with its result; none where the model refuses. -/
def outcome (s : State) : Option (StepResult × Snapshot) :=
  match stepReport s with
  | .ok (r, t) => some (r, t.snapshot)
  | .error _ => none

/-- What a run returns and leaves in the registers. -/
def runOutcome (budget : Nat) (s : State) : Option (RunResult × Snapshot) :=
  match run budget s with
  | .ok (r, t) => some (r, t.snapshot)
  | .error _ => none

/-- The memory bytes at two addresses after a step. -/
def bytesAfter (s : State) (a b : Addr) : Option (Byte × Byte) :=
  match step s with
  | .next t => some (t.readByte a, t.readByte b)
  | .fault _ => none
  | .refused _ => none

/-- Vector LD3. -/
theorem test_lda_imm_zero_keeps_other_flags :
    outcome (mk 0x0200 0xFF 0 0 0 0x5D 0 [(0x0200, 0xA9), (0x0201, 0x00)]) =
      some (.stepped 2, ⟨0x0202, 0xFF, 0x00, 0, 0, 0x5F, 2⟩) := by decide

/-- The instruction-stream wrap of section 2.3. -/
theorem test_lda_imm_stream_wrap :
    outcome (mk 0xFFFF 0xFF 0 0 0 0 0 [(0xFFFF, 0xA9), (0x0000, 0x80)]) =
      some (.stepped 2, ⟨0x0001, 0xFF, 0x80, 0, 0, 0x80, 2⟩) := by decide

/-- Vector LD7. -/
theorem test_lda_zp :
    outcome (mk 0x0200 0xFF 0 0 0 0 0 [(0x0200, 0xA5), (0x0201, 0xFF), (0x00FF, 0x90)]) =
      some (.stepped 3, ⟨0x0202, 0xFF, 0x90, 0, 0, 0x80, 3⟩) := by decide

/-- Vector LD8. -/
theorem test_lda_zpx_wraps_in_page_zero :
    outcome (mk 0x0200 0xFF 0 2 0 0 0 [(0x0200, 0xB5), (0x0201, 0xFF), (0x0001, 0x33), (0x0101, 0x44)]) =
      some (.stepped 5, ⟨0x0202, 0xFF, 0x33, 2, 0, 0x00, 5⟩) := by decide

/-- Vector LD10. -/
theorem test_lda_zpx_without_extra :
    outcome (mk 0x0200 0xFF 0 0 0 0 0 [(0x0200, 0xB5), (0x0201, 0x10), (0x0010, 0x7F)] { zpIndexedExtra := 0 }) =
      some (.stepped 4, ⟨0x0202, 0xFF, 0x7F, 0, 0, 0x00, 4⟩) := by decide

/-- Vector LD13. -/
theorem test_lda_abs_reads_own_opcode :
    outcome (mk 0x0200 0xFF 0 0 0 0 0 [(0x0200, 0xAD), (0x0201, 0x00), (0x0202, 0x02)]) =
      some (.stepped 4, ⟨0x0203, 0xFF, 0xAD, 0, 0, 0x80, 4⟩) := by decide

/-- Vector LD14. -/
theorem test_lda_absx_crosses_page :
    outcome (mk 0x0200 0xFF 0 1 0 0 0 [(0x0200, 0xBD), (0x0201, 0xFF), (0x0202, 0x10), (0x1100, 0xFE)]) =
      some (.stepped 5, ⟨0x0203, 0xFF, 0xFE, 1, 0, 0x80, 5⟩) := by decide

/-- Vector LD15. -/
theorem test_lda_absx_stays_in_page :
    outcome (mk 0x0200 0xFF 0 1 0 0 0 [(0x0200, 0xBD), (0x0201, 0x00), (0x0202, 0x10), (0x1001, 0x81)]) =
      some (.stepped 4, ⟨0x0203, 0xFF, 0x81, 1, 0, 0x80, 4⟩) := by decide

/-- Vector LD18. -/
theorem test_lda_absy_wraps_address_space :
    outcome (mk 0x0200 0xFF 0 0 0x20 0 0 [(0x0200, 0xB9), (0x0201, 0xF0), (0x0202, 0xFF), (0x0010, 0x80)]) =
      some (.stepped 5, ⟨0x0203, 0xFF, 0x80, 0, 0x20, 0x80, 5⟩) := by decide

/-- Vector LD19. -/
theorem test_lda_absy_stays_in_page :
    outcome (mk 0x0200 0xFF 0 0 0x7F 0 0 [(0x0200, 0xB9), (0x0201, 0x80), (0x0202, 0x20)]) =
      some (.stepped 4, ⟨0x0203, 0xFF, 0x00, 0, 0x7F, 0x02, 4⟩) := by decide

/-- Vector JS2. -/
theorem test_jsr_stack_wrap :
    bytesAfter (mk 0x1230 0x00 0 0 0 0xCD 0 [(0x1230, 0x20), (0x1231, 0x00), (0x1232, 0x40)]) 0x0100 0x01FF =
      some (0x12, 0x32) := by decide

/-- The JSR of program P4: its push overwrites its own operand. -/
theorem test_jsr_target_read_before_push :
    outcome (mk 0x01FD 0xFF 0 0 0 0 0 [(0x01FD, 0x20), (0x01FE, 0x00), (0x01FF, 0x02)]) =
      some (.stepped 6, ⟨0x0200, 0xFD, 0, 0, 0, 0x00, 6⟩) := by decide

/-- Vector UN3. -/
theorem test_unimplemented_at_top :
    outcome (mk 0xFFFF 0xFF 0 0 0 0 0 [(0xFFFF, 0xEA)]) =
      some (.fault 0xEA 0xFFFF, ⟨0xFFFF, 0xFF, 0, 0, 0, 0, 0⟩) := by decide

/-- Vector UN5. -/
theorem test_disabled_opcode_faults :
    outcome (mk 0x0200 0xFF 0 0 0 0 0 [(0x0200, 0xA9), (0x0201, 0x05)] { disabledOpcodes := [0xA9] }) =
      some (.fault 0xA9 0x0200, ⟨0x0200, 0xFF, 0, 0, 0, 0, 0⟩) := by decide

/-- Vector UN7. -/
theorem test_halt_opcode :
    outcome (mk 0x0200 0xFF 0x42 0 0 0 10 [(0x0200, 0xDB)] { haltOpcode := some 0xDB, haltCycles := 3 }) =
      some (.haltStep (.haltOpcode 0xDB 0x0200), ⟨0x0201, 0xFF, 0x42, 0, 0, 0, 13⟩) := by decide

/-- Vector RL7, a run of one LDA and one skipped fault. -/
theorem test_run_skip :
    runOutcome 4 (mk 0x0200 0xFF 0 0 0 0 0 [(0x0200, 0xA9), (0x0201, 0x01), (0x0202, 0x02)] { faultPolicy := .skip }) =
      some (.completed 4, ⟨0x0203, 0xFF, 0x01, 0, 0, 0x00, 4⟩) := by decide

/-- Vector S8. -/
theorem test_word_read_wraps : (mk 0 0xFF 0 0 0 0 0 [(0xFFFF, 0xCD), (0x0000, 0xAB)]).readWord 0xFFFF = 0xABCD := by
  decide

/-- Vectors XC1, XC5 and XC9, the last with V set before. -/
theorem test_extension_contract :
    addFlags 0x7F 0x01 false 0x00 = (0x80, 0xC0) ∧ subFlags 0x00 0x01 true 0x00 = (0xFF, 0x80) ∧
      compareFlags 0x10 0x20 0x40 = 0xC0 := by decide

theorem test_reset_memory_canonical : Memory.wf State.reset.mem = true := by decide

theorem test_core_reset_faults :
    Sys2Proof.core.step Sys2Proof.core.reset = .fault (Fault.illegalOpcode 0x00 0x0000) := rfl

/-! ### Data that meets the hypotheses of the statements -/

/-- `LDA #$01` at 0x0200, then an Unimplemented byte. -/
def ldaState : State := mk 0x0200 0xFF 0 0 0 0 0 [(0x0200, 0xA9), (0x0201, 0x01), (0x0202, 0x02)]

/-- `JSR $4000` at 0x1000. -/
def jsrState : State := mk 0x1000 0xFF 0 0 0 0xCD 0 [(0x1000, 0x20), (0x1001, 0x00), (0x1002, 0x40)]

/-- An Unimplemented byte at 0xFFFF. -/
def badState : State := mk 0xFFFF 0xFF 0 0 0 0 0 [(0xFFFF, 0xEA)]

/-- The halt opcode 0xDB at 0x0200, three cycles. -/
def haltState : State := mk 0x0200 0xFF 0 0 0 0 0 [(0x0200, 0xDB)] { haltOpcode := some 0xDB, haltCycles := 3 }

theorem witness_DecodeInvertsEncode :
    (Instr.jsr 0xFFFF).wf Config.default = true ∧ (Instr.ldaImm 0x80).wf Config.default = true ∧
      (Instr.ldaZp 0xFF).wf Config.default = true ∧ (Instr.ldaZpX 0x00).wf Config.default = true ∧
      (Instr.ldaAbs 0x00FF).wf Config.default = true ∧ (Instr.ldaAbsX 0xFF00).wf Config.default = true ∧
      (Instr.ldaAbsY 0xFFFF).wf Config.default = true ∧ (Instr.halt 0xFF).wf { haltOpcode := some 0xFF } = true ∧
      (Instr.unimplemented 0x00).wf Config.default = true := by decide

theorem witness_DecodeReadsOnlyEncodings :
    decode Config.default [0xBD, 0xFF, 0x10, 0xEA] = .ok (.ldaAbsX 0x10FF, [0xEA]) := rfl

theorem witness_OpcodeByteFixesLength :
    decode Config.default [0x02] = .ok (.unimplemented 0x02, []) ∧
      decode Config.default [0xA9, 0xFF] = .ok (.ldaImm 0xFF, []) ∧
      decode Config.default [0xB5, 0xFF] = .ok (.ldaZpX 0xFF, []) ∧
      decode Config.default [0xAD, 0xFF, 0xFF] = .ok (.ldaAbs 0xFFFF, []) := ⟨rfl, rfl, rfl, rfl⟩

theorem witness_InstructionTableContent :
    ({ haltOpcode := some 0x00, disabledOpcodes := [0xB9] } : Config).wf = true ∧
      (table { haltOpcode := some 0x00, disabledOpcodes := [0xB9] } 0x00).handler = .halt ∧
      (table { haltOpcode := some 0x00, disabledOpcodes := [0xB9] } 0xB9).handler = .unimplemented ∧
      (table { haltOpcode := some 0x00, disabledOpcodes := [0xB9] } 0xBD).handler = .lda := by decide

theorem witness_ReadAfterWrite :
    Memory.wf [(0, 0x01), (65535, 0xFF)] = true ∧
      Memory.readByte (Memory.writeByte [(0, 0x01), (65535, 0xFF)] 0xFFFF 0x00) 0xFFFF = 0x00 ∧
      Memory.readByte (Memory.writeByte [(0, 0x01), (65535, 0xFF)] 0xFFFF 0x00) 0x0000 = 0x01 := by decide

theorem witness_WordAccessLittleEndianWraps :
    Memory.wf [(1, 0x01), (65535, 0xFF)] = true ∧
      Memory.writeWord [(1, 0x01), (65535, 0xFF)] 0xFFFF 0xABCD = [(0, 0xAB), (1, 0x01), (65535, 0xCD)] ∧
      (0x0001 : Addr) ≠ 0xFFFF ∧ (0x0001 : Addr).toNat ≠ ((0xFFFF : Addr).toNat + 1) % 65536 := by decide

theorem witness_EqualReadsEqualMemory :
    Memory.wf [(65535, 0xFF)] = true ∧ Memory.wf (Memory.ofOverlay [(0xFFFF, 0xFF)]) = true ∧
      ∀ a : Addr, Memory.readByte [(65535, 0xFF)] a = Memory.readByte (Memory.ofOverlay [(0xFFFF, 0xFF)]) a :=
  ⟨by decide, by decide, fun _ => rfl⟩

/-- Vectors ST1 and ST2. -/
theorem witness_PushAndPopByte :
    Memory.wf (mk 0 0x00 0 0 0 0 0 []).mem = true ∧ (0x01FF : Addr) ≠ stackAddr 0x00 ∧
      (mk 0 0x00 0 0 0 0 0 []).push 0xAB = mk 0 0xFF 0 0 0 0 0 [(0x0100, 0xAB)] ∧
      (mk 0 0xFF 0 0 0 0 0 []).push 0xAB = mk 0 0xFE 0 0 0 0 0 [(0x01FF, 0xAB)] := by decide

/-- Vectors ST7 (`sp = 0`), and `sp = 1`, the least at which the word lies in order. -/
theorem witness_PushWordLayout :
    Memory.wf (mk 0 0x00 0 0 0 0 0 []).mem = true ∧
      (mk 0 0x00 0 0 0 0 0 []).pushWord 0xBEEF = mk 0 0xFE 0 0 0 0 0 [(0x0100, 0xBE), (0x01FF, 0xEF)] ∧
      1 ≤ (0x01 : Byte).toNat ∧ ((mk 0 0x01 0 0 0 0 0 []).pushWord 0xBEEF).readWord 0x0100 = 0xBEEF := by decide

/-- Vector ST7. -/
theorem witness_PopWordUndoesPushWord :
    Memory.wf (mk 0 0x00 0 0 0 0 0 []).mem = true ∧
      ((mk 0 0x00 0 0 0 0 0 []).pushWord 0xBEEF).popWord.1 = 0xBEEF ∧
      ((mk 0 0x00 0 0 0 0 0 []).pushWord 0xBEEF).popWord.2.sp = 0x00 := by decide

/-- Vectors FL8 and FL9, and a flag that is neither N nor Z. -/
theorem witness_UpdateNZWritesExactlyNAndZ :
    (0xDF : Byte).getLsbD 5 = false ∧ updateNZ 0x01 0xDF = 0x5D ∧ updateNZ 0x80 0xDF = 0xDD ∧
      Flag.v ≠ Flag.n ∧ Flag.v ≠ Flag.z := by decide

theorem witness_SubAndCompareFlagsContract : flag .d 0x08 = true ∧ flag .d 0xD7 = false := by decide

theorem witness_ExtensionModesRefused : Mode.relative ∈ [Mode.indirect, .indirectX, .indirectY, .relative] := by decide

/-- Vector AM13: the operand resolves, with the extra cycle. -/
theorem witness_ExtraCyclesPredictsResolve :
    ∃ t, resolve .absoluteX false
        { mk 0x0200 0xFF 0 1 0 0 0 [(0x0201, 0xFF), (0x0202, 0x10)] with pc := 0x0200 + 1 } =
      .ok ((.address 0x1100, 1), t) := ⟨_, rfl⟩

/-- The one hypothesis of each of the six statements LdaImmediateResult, LdaZeroPageResult, LdaZeroPageXResult,
LdaAbsoluteResult, LdaAbsoluteXResult and LdaAbsoluteYResult, with every other status bit set. -/
theorem witness_LdaResults : (mk 0xFFFF 0xFF 0 0xFF 0xFF 0xDF 0 []).status.getLsbD 5 = false := by decide

theorem witness_LdaFrame :
    isLda (.ldaImm 0) = true ∧ isLda (.ldaZp 0xFF) = true ∧ isLda (.ldaZpX 0xFF) = true ∧
      isLda (.ldaAbs 0xFFFF) = true ∧ isLda (.ldaAbsX 0xFFFF) = true ∧ isLda (.ldaAbsY 0xFFFF) = true := by decide

/-- Canonical memory, and an address next to the two stored to that is neither of them. -/
theorem witness_JsrResult :
    Memory.wf jsrState.mem = true ∧ (0x01FD : Addr) ≠ stackAddr 0xFF ∧ (0x01FD : Addr) ≠ stackAddr (0xFF - 1) := by decide

theorem witness_JsrReturnAddressPops :
    Memory.wf jsrState.mem = true ∧ ∃ t, exec (.jsr 0x4000) jsrState = .next t ∧ t.popWord.1 = 0x1002 :=
  ⟨by decide, _, rfl, by decide⟩

theorem witness_JsrTargetReadBeforePush :
    jsrState.readByte jsrState.pc = 0x20 ∧ ∃ t, step jsrState = .next t ∧ t.pc = 0x4000 := ⟨by decide, _, rfl, by decide⟩

theorem witness_HaltOpcodeResult :
    haltState.cfg.wf = true ∧ haltState.status.getLsbD 5 = false ∧ haltState.cfg.haltOpcode = some 0xDB ∧
      haltState.readByte haltState.pc = 0xDB ∧ haltState.cfg.haltCycles ≤ 3 := by decide

theorem witness_UnimplementedRaisesIllegalOpcode :
    (badState.cfg.wf = true ∧ badState.status.getLsbD 5 = false ∧
        badState.readByte badState.pc ∉ [0x20, 0xA9, 0xA5, 0xB5, 0xAD, 0xBD, 0xB9] ∧
        badState.cfg.haltOpcode ≠ some (badState.readByte badState.pc)) ∧
      (({ disabledOpcodes := [0x20] } : Config).wf = true ∧
        decodeInstr { disabledOpcodes := [0x20] } 0x20 0 0 = .unimplemented 0x20) := by decide

theorem witness_StepRunsDecodedInstruction :
    ldaState.cfg.wf = true ∧ ldaState.status.getLsbD 5 = false ∧
      decode ldaState.cfg [ldaState.readByte 0x0200, ldaState.readByte 0x0201, ldaState.readByte 0x0202] =
        .ok (.ldaImm 0x01, [0x02]) := ⟨by decide, by decide, rfl⟩

theorem witness_PlacedInstructionRuns :
    Memory.wf State.reset.mem = true ∧ State.reset.cfg = Config.default ∧ State.reset.status.getLsbD 5 = false ∧
      decodeTableWord 24 0xFFFF20 = some (.jsr 0xFFFF) := by decide

theorem witness_InadmissibleStateRefused :
    ((mk 0 0 0 0 0 0x20 0 []).cfg.wf = true ∧ (mk 0 0 0 0 0 0x20 0 []).status.getLsbD 5 = true) ∧
      (mk 0 0 0 0 0 0 0 [] { zpIndexedExtra := 2 }).cfg.problem = some .zpIndexedExtraTooLarge := by decide

theorem witness_FaultExactlyAtUnimplemented :
    (badState.cfg.wf = true ∧ badState.status.getLsbD 5 = false ∧
        (table badState.cfg (badState.readByte badState.pc)).handler = .unimplemented) ∧
      (haltState.cfg.wf = true ∧ haltState.status.getLsbD 5 = false ∧
        (table haltState.cfg (haltState.readByte haltState.pc)).handler ≠ .unimplemented) := by decide

theorem witness_FaultChangesNothing : ∃ t, stepReport badState = .ok (.fault 0xEA 0xFFFF, t) := ⟨_, rfl⟩

theorem witness_StepCycleCost :
    (∃ t, stepReport ldaState = .ok (.stepped 2, t)) ∧ (∃ t, stepReport jsrState = .ok (.stepped 6, t)) ∧
      (∃ t, stepReport haltState = .ok (.haltStep (.haltOpcode 0xDB 0x0200), t)) ∧
      ∃ t, stepReport badState = .ok (.fault 0xEA 0xFFFF, t) := ⟨⟨_, rfl⟩, ⟨_, rfl⟩, ⟨_, rfl⟩, ⟨_, rfl⟩⟩

theorem witness_PredictCostIsExact :
    (∃ t, stepReport ldaState = .ok (.stepped 2, t)) ∧
      (∃ t, stepReport haltState = .ok (.haltStep (.haltOpcode 0xDB 0x0200), t)) ∧
      (∃ t, stepReport badState = .ok (.fault 0xEA 0xFFFF, t)) ∧ badState.cfg.wf = true :=
  ⟨⟨_, rfl⟩, ⟨_, rfl⟩, ⟨_, rfl⟩, by decide⟩

/-- Vectors RS2 and RS3. -/
theorem witness_ResetCases :
    Memory.readByte [(0xFFFD, 0x02)] 0xFFFC = 0x00 ∧ Memory.readByte [(0xFFFD, 0x02)] 0xFFFD = 0x02 ∧
      (State.resetWith {} (some [(0xFFFD, 0x02)]) none).pc = 0x0200 ∧
      (State.resetWith {} (some [(0xFFFD, 0x02)]) (some 0x1000)).pc = 0x1000 := by decide

theorem witness_ResetIsAdmitted :
    Config.default.wf = true ∧ (some [(0xFFFD, 0x02)] : Option Memory).all (fun m => Memory.wf m) = true ∧
      (none : Option Memory).all (fun m => Memory.wf m) = true := by decide

theorem ldaState_admitted : ldaState.Admitted := ⟨by decide, by decide, by decide⟩

theorem witness_StepKeepsAdmitted : ldaState.Admitted ∧ ∃ t, step ldaState = .next t := ⟨ldaState_admitted, _, rfl⟩

/-- A state reached from a reset with `LDA #$80` at 0x0000 by one step, and one reached from it by a skipped fault. -/
theorem witness_ReachableStatesUntouched :
    Config.default.wf = true ∧
      ∃ s t : State, Reachable Config.default s ∧ s.a = 0x80 ∧ Reachable Config.default t ∧ t.pc = 0x0003 :=
  ⟨by decide, _, _,
    .step (.reset (some [(0, 0xA9), (1, 0x80)]) none (by decide)) rfl, by decide,
    .skip (.step (.reset (some [(0, 0xA9), (1, 0x80)]) none (by decide)) rfl) rfl, by decide⟩

/-- The states of the statements about any completed step: one that is a JSR, one that is not. -/
theorem witness_NoInstructionWritesIndexOrOtherFlags :
    (∃ t, step ldaState = .next t) ∧ ∃ t, step jsrState = .next t := ⟨⟨_, rfl⟩, ⟨_, rfl⟩⟩

theorem witness_OnlyJsrTransfersAndStores :
    (∃ t, step jsrState = .next t ∧ jsrState.fetchInstr = .jsr 0x4000) ∧
      ∃ t, step ldaState = .next t ∧ ldaState.fetchInstr = .ldaImm 0x01 :=
  ⟨⟨_, rfl, by decide⟩, ⟨_, rfl, by decide⟩⟩

theorem witness_StepWritesOnlyStackPage :
    (∃ t, step jsrState = .next t) ∧ (0x00FF : Addr).toNat < 0x100 ∧ 0x1FF < (0x0200 : Addr).toNat :=
  ⟨⟨_, rfl⟩, by decide, by decide⟩

theorem witness_CyclesStrictlyIncrease : ∃ t, step haltState = .next t := ⟨_, rfl⟩

/-- The hypotheses of the statements about runs from an admitted state; `used` may equal `budget`. -/
theorem witness_RunIsTheLoop :
    ldaState.cfg.wf = true ∧ ldaState.status.getLsbD 5 = false ∧ 2 ≤ 4 ∧ 4 ≤ 4 := by decide

theorem witness_RunReturnsWithinBudget :
    ldaState.cfg.wf = true ∧ ldaState.status.getLsbD 5 = false ∧ runOutcome 2 ldaState =
      some (.completed 2, ⟨0x0202, 0xFF, 0x01, 0, 0, 0, 2⟩) := by decide

theorem witness_RunWithZeroBudget : badState.cfg.wf = true ∧ badState.status.getLsbD 5 = false := by decide

theorem witness_RunAccountsCycles : ∃ t, runWith 2 .abort ldaState = .ok (.completed 2, t) := ⟨_, rfl⟩

theorem witness_RunIsResumable :
    ldaState.cfg.wf = true ∧ ldaState.status.getLsbD 5 = false ∧
      ∃ t, runWith 3 .skip ldaState = .ok (.completed 2, t) := ⟨by decide, by decide, _, rfl⟩

theorem witness_FaultPolicies :
    badState.cfg.wf = true ∧ badState.status.getLsbD 5 = false ∧
      (table badState.cfg (badState.readByte badState.pc)).handler = .unimplemented ∧ badState.cfg.skipCycles ≤ 2 := by
  decide

theorem witness_BudgetTestComesFirst :
    (badState.cfg.wf = true ∧ badState.status.getLsbD 5 = false ∧
        (table badState.cfg (badState.readByte badState.pc)).handler = .unimplemented ∧
        0 < (if FaultPolicy.abort = .skip then badState.cfg.skipCycles else 1) ∧
        1 < (if FaultPolicy.skip = .skip then badState.cfg.skipCycles else 1)) ∧
      (haltState.cfg.wf = true ∧ haltState.status.getLsbD 5 = false ∧
        (table haltState.cfg (haltState.readByte haltState.pc)).handler = .halt ∧ 2 < haltState.cfg.haltCycles) := by
  decide

end Sys2Proof.Tests
end

section
/-! The bounds of rule R9: a configuration is well formed exactly when it passes every check of `Config.problem`. -/

namespace Sys2Proof

/-- A chain of checks reports nothing exactly when its first check passes and the rest reports nothing. -/
theorem isNone_check {α : Type} {failed : Prop} [Decidable failed] {problem : α} {rest : Option α} :
    (if failed then some problem else rest).isNone = true ↔ ¬failed ∧ rest.isNone = true := by
  split <;> simp [*]

/-- The implemented bytes are the seven of rule R54, in the order of `Form.all`. -/
theorem implementedOpcodes_eq : implementedOpcodes = [0x20, 0xA9, 0xA5, 0xB5, 0xAD, 0xBD, 0xB9] := rfl

theorem Config.haltOpcode_check {cfg : Config} :
    ¬(cfg.haltOpcode.any fun h => implementedOpcodes.contains h) = true ↔
      ∀ h, cfg.haltOpcode = some h → h ∉ implementedOpcodes := by
  cases cfg.haltOpcode <;> simp

theorem Config.disabledOpcodes_check {cfg : Config} :
    ¬(!cfg.disabledOpcodes.all fun b => implementedOpcodes.contains b) = true ↔
      ∀ b ∈ cfg.disabledOpcodes, b ∈ implementedOpcodes := by
  simp

theorem Config.initialImage_check {cfg : Config} :
    ¬(!cfg.initialImage.all fun m => Machine.Memory.wf m) = true ↔
      ∀ m, cfg.initialImage = some m → Machine.Memory.wf m = true := by
  cases cfg.initialImage <;> simp

/-- A configuration is well formed exactly when each of its parameters passes its check. -/
theorem Config.wf_iff {cfg : Config} :
    cfg.wf = true ↔
      cfg.zpIndexedExtra ≤ 1 ∧ 1 ≤ cfg.haltCycles ∧ 1 ≤ cfg.skipCycles ∧
        (∀ h, cfg.haltOpcode = some h → h ∉ implementedOpcodes) ∧
        (∀ b ∈ cfg.disabledOpcodes, b ∈ implementedOpcodes) ∧
        ∀ m, cfg.initialImage = some m → Machine.Memory.wf m = true := by
  simp only [Config.wf, Config.problem, isNone_check, Config.haltOpcode_check, Config.disabledOpcodes_check,
    Config.initialImage_check, Option.isNone_none, and_true, Nat.not_lt, Nat.one_le_iff_ne_zero, ne_eq]

/-- Settles O6: the checks of `Config.problem` are the bounds of rule R9, the implemented bytes written out. -/
theorem configurationBounds : Obligations.ConfigurationBounds := by
  intro cfg
  rw [Config.wf_iff, implementedOpcodes_eq]

end Sys2Proof
end

section
/-! The invariants of a completed step and of every reachable state (rules R18, R19, R23, R24, R26, R29). -/

namespace Sys2Proof.Machine

variable {s t : State}

/-! ### The status byte -/

/-- `updateNZ` writes no flag but N and Z (rule R95). -/
theorem flag_updateNZ {f : Flag} (hn : f ≠ .n) (hz : f ≠ .z) (v st : Byte) : flag f (updateNZ v st) = flag f st := by
  rw [flag, updateNZ_getLsbD, flag]
  cases f <;> simp_all [Flag.bit, bit5Clear]

/-- The mask 0x7D names the flags V, B, D, I and C, and bit 5. -/
theorem and_0x7D_eq_zero_iff {st : Byte} :
    st &&& 0x7D = 0 ↔ (∀ f ∈ [Flag.v, .b, .d, .i, .c], flag f st = false) ∧ st.getLsbD 5 = false := by
  constructor
  · intro h
    have hbit (i : Nat) (hi : (0x7D : Byte).getLsbD i = true) : st.getLsbD i = false := by
      calc st.getLsbD i
        _ = (st &&& 0x7D).getLsbD i := by rw [BitVec.getLsbD_and, hi, Bool.and_true]
        _ = false := h ▸ BitVec.getLsbD_zero
    exact ⟨fun f hf => hbit f.bit (by revert f; decide), hbit 5 (by decide)⟩
  · rintro ⟨hflags, h5⟩
    refine BitVec.eq_of_getLsbD_eq fun i hi => ?_
    interval_cases i <;> simp_all [flag, Flag.bit]

/-! ### What a completed step can do, field by field -/

/-- No instruction writes `x` or `y` or changes the parameters. -/
theorem step_frame (h : step s = .next t) : t.x = s.x ∧ t.y = s.y ∧ t.cfg = s.cfg := by
  obtain ⟨-, -, hexec⟩ := step_next h
  obtain ⟨_, _, _, -, -, rfl⟩ | ⟨_, -, rfl⟩ | ⟨_, -, rfl⟩ := exec_next hexec <;> simp

/-- A load updates N and Z in the status byte; nothing else writes it. -/
theorem step_status (h : step s = .next t) : t.status = s.status ∨ ∃ v, t.status = updateNZ v s.status := by
  obtain ⟨-, -, hexec⟩ := step_next h
  obtain ⟨_, _, _, -, -, rfl⟩ | ⟨_, -, rfl⟩ | ⟨_, -, rfl⟩ := exec_next hexec
  · exact .inr ⟨_, rfl⟩
  · exact .inl rfl
  · exact .inl rfl

theorem step_status_bit5 (h : step s = .next t) : t.status.getLsbD 5 = false := by
  obtain ⟨-, hbit5, -⟩ := step_next h
  obtain hst | ⟨v, hst⟩ := step_status h
  · rw [hst, hbit5]
  · rw [hst, updateNZ_bit5]

theorem step_flag {f : Flag} (hn : f ≠ .n) (hz : f ≠ .z) (h : step s = .next t) :
    flag f t.status = flag f s.status := by
  obtain hst | ⟨v, hst⟩ := step_status h
  · rw [hst]
  · rw [hst, flag_updateNZ hn hz]

/-- The one instruction that stores is the call, and it pushes a word. -/
theorem step_mem_wf (h : step s = .next t) (hwf : Memory.wf s.mem = true) : Memory.wf t.mem = true := by
  obtain ⟨-, -, hexec⟩ := step_next h
  obtain ⟨_, _, _, -, -, rfl⟩ | ⟨_, -, rfl⟩ | ⟨_, -, rfl⟩ := exec_next hexec
  · exact hwf
  · exact State.pushWord_wf (s := s.advancePc 3) hwf
  · exact hwf

theorem descriptor_baseCycles_pos (f : Form) : 0 < f.descriptor.baseCycles := by
  cases f <;> decide

/-- A load and the call charge at least their base cycles, the halt descriptor `HALT_CYCLES`, at least 1 by rule R9. -/
theorem step_cycles_lt (h : step s = .next t) : s.cycles < t.cycles := by
  obtain ⟨hcfg, -, hexec⟩ := step_next h
  obtain ⟨f, _, _, -, -, rfl⟩ | ⟨_, -, rfl⟩ | ⟨_, -, rfl⟩ := exec_next hexec
  · exact Nat.lt_add_of_pos_right (Nat.add_pos_left (descriptor_baseCycles_pos f) _)
  · exact Nat.lt_add_of_pos_right (by decide)
  · obtain ⟨-, hhalt, -⟩ := Config.wf_iff.1 hcfg
    exact Nat.lt_add_of_pos_right hhalt

/-! ### The invariant of a step -/

theorem step_admitted (hs : s.Admitted) (h : step s = .next t) : t.Admitted where
  memWf := step_mem_wf h hs.memWf
  cfgWf := by
    obtain ⟨-, -, hcfg⟩ := step_frame h
    rw [hcfg, hs.cfgWf]
  bit5 := step_status_bit5 h

theorem skipSubstitute_admitted (hs : s.Admitted) : s.skipSubstitute.Admitted :=
  ⟨hs.memWf, hs.cfgWf, hs.bit5⟩

/-- Settles O45: a step keeps the form of memory, the parameters and bit 5; the no-op writes none of them. -/
theorem stepKeepsAdmitted : Obligations.StepKeepsAdmitted :=
  ⟨fun _ _ => step_admitted, fun _ => skipSubstitute_admitted⟩

/-- Settles O47: the frame of a step, and no flag but N and Z is written. -/
theorem noInstructionWritesIndexOrOtherFlags : Obligations.NoInstructionWritesIndexOrOtherFlags := by
  intro s t h
  obtain ⟨hx, hy, hcfg⟩ := step_frame h
  refine ⟨hx, hy, hcfg, fun f hf => ?_⟩
  obtain ⟨hn, hz⟩ : f ≠ .n ∧ f ≠ .z := by revert f; decide
  exact step_flag hn hz h

/-- Settles O50: a completed step charges at least one cycle. -/
theorem cyclesStrictlyIncrease : Obligations.CyclesStrictlyIncrease :=
  fun _ _ => step_cycles_lt

/-! ### The state after reset -/

theorem resetWith_admitted {cfg : Config} {image : Option Memory} (start : Option Addr) (hcfg : cfg.wf = true)
    (himage : image.all (fun m => Memory.wf m) = true) : (State.resetWith cfg image start).Admitted where
  memWf := by
    cases image with
    | none => exact Memory.wf_zeroed
    | some m => exact himage
  cfgWf := hcfg
  bit5 := BitVec.getLsbD_zero

/-- The core's reset is that of rule R125 with the default parameters: the vector of zeroed memory is 0x0000. -/
theorem reset_eq_resetWith : State.reset = State.resetWith Config.default none none := rfl

/-- Settles O44: the image given, or zeroed memory, is canonical, and the status byte is 0. -/
theorem resetIsAdmitted : Obligations.ResetIsAdmitted :=
  ⟨reset_eq_resetWith ▸ resetWith_admitted none (by decide) rfl, fun _ _ start => resetWith_admitted start⟩

/-! ### The invariant of the reachable states -/

theorem reachable_admitted {cfg : Config} (hcfg : cfg.wf = true) (h : Reachable cfg s) : s.Admitted := by
  induction h with
  | reset image start himage => exact resetWith_admitted start hcfg himage
  | step _ hstep ih => exact step_admitted ih hstep
  | skip _ _ ih => exact skipSubstitute_admitted ih

theorem reachable_cfg {cfg : Config} (h : Reachable cfg s) : s.cfg = cfg := by
  induction h with
  | reset image start himage => rfl
  | step _ hstep ih =>
    obtain ⟨-, -, hkeep⟩ := step_frame hstep
    rw [hkeep, ih]
  | skip _ _ ih => exact ih

/-- A step keeps `x`, `y` and the flags of the mask, and leaves bit 5 at 0. -/
theorem step_untouched (hs : s.Untouched) (h : step s = .next t) : t.Untouched := by
  obtain ⟨hx, hy, -, hflags⟩ := noInstructionWritesIndexOrOtherFlags s t h
  obtain ⟨hzero, -⟩ := and_0x7D_eq_zero_iff.1 hs.flags
  exact ⟨hx.trans hs.x, hy.trans hs.y,
    and_0x7D_eq_zero_iff.2 ⟨fun f hf => (hflags f hf).trans (hzero f hf), step_status_bit5 h⟩⟩

theorem reachable_untouched {cfg : Config} (h : Reachable cfg s) : s.Untouched := by
  induction h with
  | reset image start himage => exact ⟨rfl, rfl, BitVec.zero_and⟩
  | step _ hstep ih => exact step_untouched ih hstep
  | skip _ _ ih => exact ⟨ih.x, ih.y, ih.flags⟩

/-- Settles O46: reset establishes, and every step and skipped fault keeps, each of the three parts. -/
theorem reachableStatesUntouched : Obligations.ReachableStatesUntouched :=
  fun _ _ hcfg h => ⟨reachable_untouched h, reachable_admitted hcfg h, reachable_cfg h⟩

end Sys2Proof.Machine
end

section
/-! Words and their bytes, memory by what it reads, and the stack page (rules R29, R32, R33, R41 to R45, R49). -/

namespace Sys2Proof

/-! ### Byte order in numbers -/

theorem wordOf_toNat (hi lo : Byte) : (wordOf hi lo).toNat = 256 * hi.toNat + lo.toNat := by
  rw [wordOf, BitVec.toNat_append, ← Nat.shiftLeft_add_eq_or_of_lt lo.isLt, Nat.shiftLeft_eq, Nat.mul_comm]

theorem loByte_toNat (v : Addr) : (loByte v).toNat = v.toNat % 256 :=
  BitVec.extractLsb'_toNat 0 8 v

theorem hiByte_toNat (v : Addr) : (hiByte v).toNat = v.toNat / 256 := by
  have := v.isLt
  rw [hiByte, BitVec.extractLsb'_toNat, Nat.shiftRight_eq_div_pow]
  omega

/-! ### The instruction that three bytes stand for -/

/-- A byte the format does not use is not looked at, so three bytes always decode to what `decodeInstr` makes of them. -/
theorem decode_three_bytes (cfg : Config) (op b1 b2 : Byte) :
    ∃ rest, decode cfg [op, b1, b2] = .ok (decodeInstr cfg op b1 b2, rest) := by
  simp only [decode, operandBytes, decodeInstr]
  cases classify cfg op with
  | implemented f => cases f <;> exact ⟨_, rfl⟩
  | halt => exact ⟨_, rfl⟩
  | unimplemented => exact ⟨_, rfl⟩

theorem decodeTableWord_eq (nbits w : Nat) :
    decodeTableWord nbits w =
      some (decodeInstr Config.default (byteOfNat 0 (w % 2 ^ nbits)) (byteOfNat 1 (w % 2 ^ nbits))
        (byteOfNat 2 (w % 2 ^ nbits))) := by
  rw [decodeTableWord, (decode_three_bytes _ _ _ _).choose_spec]

end Sys2Proof

namespace Sys2Proof.Machine

/-! ### Memory -/

/-- Settles O7: the two laws of a read after a write, at the address written and at another. -/
theorem readAfterWrite : Obligations.ReadAfterWrite := by
  intro m a b v hwf
  split
  · next h => rw [h, Memory.readByte_writeByte_same a v hwf]
  · next h => exact Memory.readByte_writeByte_other v h

/-- The address after `a`, with the wrap of rule R33. -/
theorem ofNat_succ_mod (a : Addr) : BitVec.ofNat 16 ((a.toNat + 1) % 65536) = a + 1 :=
  BitVec.eq_of_toNat_eq (by simp)

theorem addr_ne_add_one (a : Addr) : a ≠ a + 1 := by bv_omega

theorem Memory.readByte_writeWord_lo {m : Memory} (a v : Addr) (hwf : Memory.wf m = true) :
    Memory.readByte (Memory.writeWord m a v) a = loByte v := by
  rw [Memory.writeWord, Memory.readByte_writeByte_other _ (addr_ne_add_one a), Memory.readByte_writeByte_same _ _ hwf]

theorem Memory.readByte_writeWord_hi {m : Memory} (a v : Addr) (hwf : Memory.wf m = true) :
    Memory.readByte (Memory.writeWord m a v) (a + 1) = hiByte v :=
  Memory.readByte_writeByte_same _ _ (Memory.wf_writeByte _ _ hwf)

theorem Memory.readByte_writeWord_other {m : Memory} {a b : Addr} (v : Addr) (hlo : b ≠ a) (hhi : b ≠ a + 1) :
    Memory.readByte (Memory.writeWord m a v) b = Memory.readByte m b := by
  rw [Memory.writeWord, Memory.readByte_writeByte_other _ hhi, Memory.readByte_writeByte_other _ hlo]

/-- Settles O8: a word is `256 * hi + lo`, and a word write is two byte writes at different addresses. -/
theorem wordAccessLittleEndianWraps : Obligations.WordAccessLittleEndianWraps := by
  intro m a v
  rw [ofNat_succ_mod]
  refine ⟨wordOf_toNat _ _, fun hwf => ⟨?_, ?_, fun b hlo hhi => Memory.readByte_writeWord_other v hlo fun h => hhi ?_⟩⟩
  · rw [Memory.readByte_writeWord_lo a v hwf, loByte_toNat]
  · rw [Memory.readByte_writeWord_hi a v hwf, hiByte_toNat]
  · rw [h]
    exact BitVec.toNat_add a 1

/-! ### The canonical form is determined by what it reads -/

theorem Memory.lookup_cons_head (k : Nat) (v : Byte) (m : Memory) : Memory.lookup ((k, v) :: m) k = v :=
  if_pos rfl

theorem Memory.lookup_cons_tail {k a : Nat} (v : Byte) (m : Memory) (h : k ≠ a) :
    Memory.lookup ((k, v) :: m) a = Memory.lookup m a :=
  if_neg h

/-- The first listed address reads as no unlisted address does, so a memory that reads alike lists no key above it
first. -/
theorem Memory.least_le_head {l l' k : Nat} {v : Byte} {m n : Memory} (hm : Memory.wfFrom l ((k, v) :: m) = true)
    (hn : Memory.wfFrom l' n = true)
    (hread : ∀ a < memorySize, Memory.lookup ((k, v) :: m) a = Memory.lookup n a) : l' ≤ k := by
  obtain ⟨-, hk, hv, -⟩ := Memory.wfFrom_cons.1 hm
  refine Nat.le_of_not_lt fun hlt => hv ?_
  calc v
    _ = Memory.lookup ((k, v) :: m) k := (Memory.lookup_cons_head k v m).symm
    _ = Memory.lookup n k := hread k hk
    _ = unlistedByte := Memory.lookup_below hn hlt

/-- A nonempty canonical list reads unlike the empty one, at its first key. -/
theorem Memory.not_reads_as_zeroed {l k : Nat} {v : Byte} {m : Memory} (hm : Memory.wfFrom l ((k, v) :: m) = true) :
    ¬∀ a < memorySize, Memory.lookup ((k, v) :: m) a = Memory.lookup [] a :=
  fun hread => Nat.not_succ_le_self k (Memory.least_le_head (l' := k + 1) hm rfl hread)

/-- By induction: the first keys and bytes agree, and so the tails read alike. -/
theorem Memory.eq_of_lookup_eq {l l' : Nat} {m n : Memory} (hm : Memory.wfFrom l m = true)
    (hn : Memory.wfFrom l' n = true) (hread : ∀ a < memorySize, Memory.lookup m a = Memory.lookup n a) : m = n := by
  induction m generalizing l l' n with
  | nil =>
    cases n with
    | nil => rfl
    | cons d n => exact absurd (fun a ha => (hread a ha).symm) (Memory.not_reads_as_zeroed hn)
  | cons c m ih =>
    cases n with
    | nil => exact absurd hread (Memory.not_reads_as_zeroed hm)
    | cons d n =>
      obtain ⟨k, v⟩ := c
      obtain ⟨k', v'⟩ := d
      obtain ⟨-, hk, hv, hmTail⟩ := Memory.wfFrom_cons.1 hm
      obtain ⟨-, hk', hv', hnTail⟩ := Memory.wfFrom_cons.1 hn
      obtain rfl : k = k' := Nat.le_antisymm
        (Memory.least_le_head hn (Memory.wfFrom_cons.2 ⟨le_rfl, hk, hv, hmTail⟩) fun a ha => (hread a ha).symm)
        (Memory.least_le_head hm (Memory.wfFrom_cons.2 ⟨le_rfl, hk', hv', hnTail⟩) hread)
      have hvalue : v = v' := by
        simpa only [Memory.lookup_cons_head] using hread k hk
      have htail : m = n := ih hmTail hnTail fun a ha => by
        obtain hlt | hge := Nat.lt_or_ge k a
        · simpa only [Memory.lookup_cons_tail _ _ hlt.ne] using hread a ha
        · rw [Memory.lookup_below hmTail (by omega), Memory.lookup_below hnTail (by omega)]
      rw [hvalue, htail]

/-- Settles O9: the keys of a canonical list are addresses, so reads at addresses determine it. -/
theorem equalReadsEqualMemory : Obligations.EqualReadsEqualMemory :=
  fun m n hm hn hread => Memory.eq_of_lookup_eq hm hn fun a ha => by
    simpa only [Memory.readByte, BitVec.toNat_ofNat, Nat.mod_eq_of_lt (show a < 2 ^ 16 from ha)] using hread (BitVec.ofNat 16 a)

/-! ### The stack -/

variable {s : State}

theorem ofNat_stackAddr (p : Byte) : BitVec.ofNat 16 (256 + p.toNat) = stackAddr p := by
  rw [← stackAddr_toNat, BitVec.ofNat_toNat, BitVec.setWidth_eq]

theorem sub_one_toNat (p : Byte) : (p - 1).toNat = (p.toNat + 255) % 256 := by bv_omega

theorem sub_one_ne (p : Byte) : p - 1 ≠ p := by bv_omega

@[simp] theorem State.pop_fst (s : State) : s.pop.1 = s.readByte (stackAddr (s.sp + 1)) := rfl

theorem State.readByte_push_same (v : Byte) (hwf : Memory.wf s.mem = true) :
    (s.push v).readByte (stackAddr s.sp) = v :=
  Memory.readByte_writeByte_same _ v hwf

theorem State.readByte_push_other {b : Addr} (v : Byte) (h : b ≠ stackAddr s.sp) :
    (s.push v).readByte b = s.readByte b :=
  Memory.readByte_writeByte_other v h

/-- Settles O11: a push is one byte write in page 1, and `sp` is a byte. -/
theorem pushAndPopByte : Obligations.PushAndPopByte := by
  intro s v
  have hnext : (s.sp + 1).toNat = (s.sp.toNat + 1) % 256 := BitVec.toNat_add s.sp 1
  refine ⟨stackAddr_toNat s.sp, sub_one_toNat s.sp, State.readByte_push_same v, fun _ => State.readByte_push_other v, rfl,
    hnext, ?_, rfl⟩
  rw [← hnext, ofNat_stackAddr, State.pop_fst]

/-- The high byte of a pushed word stands where `sp` was: the second push is at another stack byte. -/
theorem State.readByte_pushWord_hi (v : Addr) (hwf : Memory.wf s.mem = true) :
    (s.pushWord v).readByte (stackAddr s.sp) = hiByte v := by
  have hother : stackAddr s.sp ≠ stackAddr (s.push (hiByte v)).sp := fun h =>
    sub_one_ne s.sp (stackAddr_inj.1 h).symm
  rw [State.pushWord, State.readByte_push_other _ hother, State.readByte_push_same _ hwf]

theorem State.readByte_pushWord_lo (v : Addr) (hwf : Memory.wf s.mem = true) :
    (s.pushWord v).readByte (stackAddr (s.sp - 1)) = loByte v :=
  State.readByte_push_same (s := s.push (hiByte v)) _ (State.push_wf hwf)

/-- Where `p` does not wrap, its stack byte is the one after that of `p - 1`. -/
theorem stackAddr_sub_one_add_one {p : Byte} (h : 1 ≤ p.toNat) : stackAddr (p - 1) + 1 = stackAddr p := by
  have hlt := p.isLt
  refine BitVec.eq_of_toNat_eq ?_
  rw [BitVec.toNat_add, stackAddr_toNat, stackAddr_toNat, sub_one_toNat, show (1 : Addr).toNat = 1 from rfl]
  omega

/-- With no wrap between its two bytes a pushed word lies in memory in little-endian order (rule R43). -/
theorem State.readWord_pushWord (v : Addr) (hwf : Memory.wf s.mem = true) (hsp : 1 ≤ s.sp.toNat) :
    (s.pushWord v).readWord (stackAddr (s.sp - 1)) = v := by
  calc (s.pushWord v).readWord (stackAddr (s.sp - 1))
    _ = wordOf ((s.pushWord v).readByte (stackAddr (s.sp - 1) + 1))
          ((s.pushWord v).readByte (stackAddr (s.sp - 1))) := rfl
    _ = wordOf (hiByte v) (loByte v) := by
      rw [stackAddr_sub_one_add_one hsp, State.readByte_pushWord_hi v hwf, State.readByte_pushWord_lo v hwf]
    _ = v := wordOf_hiByte_loByte v

/-- Settles O12: the two bytes of a pushed word, and their order in memory. -/
theorem pushWordLayout : Obligations.PushWordLayout := by
  intro s v hwf
  refine ⟨rfl, ?_, ?_, ?_, fun hsp => ?_⟩
  · rw [State.pushWord_sp, sub_one_toNat, sub_one_toNat]
    omega
  · rw [ofNat_stackAddr, State.readByte_pushWord_hi v hwf]
  · rw [← sub_one_toNat, ofNat_stackAddr, State.readByte_pushWord_lo v hwf]
  · have hlow : 256 + s.sp.toNat - 1 = 256 + (s.sp - 1).toNat := by
      have hlt := s.sp.isLt
      rw [sub_one_toNat]
      omega
    rw [hlow, ofNat_stackAddr, State.readWord_pushWord v hwf hsp]

/-- Settles O13: after a word push the two pops come to the stack bytes of the low and of the high byte. -/
theorem popWordUndoesPushWord : Obligations.PopWordUndoesPushWord := by
  intro s v
  refine ⟨rfl, fun hwf => ?_⟩
  have hlo : (s.pushWord v).sp + 1 = s.sp - 1 := BitVec.sub_add_cancel _ _
  have hhi : (s.pushWord v).sp + 1 + 1 = s.sp := by rw [hlo, BitVec.sub_add_cancel]
  refine ⟨?_, hhi⟩
  calc (s.pushWord v).popWord.1
    _ = wordOf ((s.pushWord v).readByte (stackAddr ((s.pushWord v).sp + 1 + 1)))
          ((s.pushWord v).readByte (stackAddr ((s.pushWord v).sp + 1))) := rfl
    _ = wordOf (hiByte v) (loByte v) := by
      rw [hhi, hlo, State.readByte_pushWord_hi v hwf, State.readByte_pushWord_lo v hwf]
    _ = v := wordOf_hiByte_loByte v

/-! ### What a step leaves of memory -/

/-- Every stack byte lies in 0x0100..0x01FF (rule R45). -/
theorem ne_stackAddr {b : Addr} (hb : b.toNat < 0x100 ∨ 0x1FF < b.toNat) (p : Byte) : b ≠ stackAddr p := by
  rintro rfl
  have hlt := p.isLt
  rw [stackAddr_toNat] at hb
  omega

theorem State.readByte_pushWord_outside {b : Addr} (v : Addr) (hb : b.toNat < 0x100 ∨ 0x1FF < b.toNat) :
    (s.pushWord v).readByte b = s.readByte b := by
  rw [State.pushWord, State.readByte_push_other _ (ne_stackAddr hb _), State.readByte_push_other _ (ne_stackAddr hb _)]

/-- Settles O49: a load and the halt descriptor write no memory, and the call pushes one word. -/
theorem stepWritesOnlyStackPage : Obligations.StepWritesOnlyStackPage := by
  intro s t b h hb
  obtain ⟨-, -, hexec⟩ := step_next h
  obtain ⟨_, _, _, -, -, rfl⟩ | ⟨_, -, rfl⟩ | ⟨_, -, rfl⟩ := exec_next hexec
  · rfl
  · exact State.readByte_pushWord_outside (s := s.advancePc 3) _ hb
  · rfl

/-! ### An instruction placed at `pc` -/

/-- The three bytes placed are fetched as written: `pc`, `pc + 1` and `pc + 2` are three addresses (rule R49). -/
theorem State.fetchInstr_withFetchWord (nbits w : Nat) (hwf : Memory.wf s.mem = true) :
    (s.withFetchWord nbits w).fetchInstr =
      decodeInstr s.cfg (byteOfNat 0 (w % 2 ^ nbits)) (byteOfNat 1 (w % 2 ^ nbits)) (byteOfNat 2 (w % 2 ^ nbits)) := by
  have h01 : s.pc ≠ s.pc + 1 := addr_ne_add_one s.pc
  have h02 : s.pc ≠ s.pc + 2 := by bv_omega
  have h12 : s.pc + 1 ≠ s.pc + 2 := by bv_omega
  have hwf1 := Memory.wf_writeByte s.pc (byteOfNat 0 (w % 2 ^ nbits)) hwf
  have hwf2 := Memory.wf_writeByte (s.pc + 1) (byteOfNat 1 (w % 2 ^ nbits)) hwf1
  simp only [State.fetchInstr, State.withFetchWord, State.readByte_eq, State.writeByte_mem, State.writeByte_pc,
    State.writeByte_cfg, Memory.readByte_writeByte_other _ h01, Memory.readByte_writeByte_other _ h02,
    Memory.readByte_writeByte_other _ h12, Memory.readByte_writeByte_same _ _ hwf,
    Memory.readByte_writeByte_same _ _ hwf1, Memory.readByte_writeByte_same _ _ hwf2]

/-- Settles O35: the step fetches the bytes placed, and the table decoder reads the same instruction from them. -/
theorem placedInstructionRuns : Obligations.PlacedInstructionRuns := by
  intro s nbits w i hwf hcfg hbit5 hword
  have hfetch : (s.withFetchWord nbits w).fetchInstr = i := by
    rw [decodeTableWord_eq] at hword
    rw [State.fetchInstr_withFetchWord nbits w hwf, hcfg, Option.some.inj hword]
  have hadmitted : (s.withFetchWord nbits w).cfg.wf = true := by
    rw [show (s.withFetchWord nbits w).cfg = Config.default from hcfg]
    decide
  rw [step_of_admitted hadmitted hbit5, hfetch]

end Sys2Proof.Machine
end

section
/-! The decoder and the encoder are inverse to each other, and the content of the instruction table (rules R51 to R59,
R62). -/

namespace Sys2Proof

variable {cfg : Config} {op : Byte} {i : Instr} {rest bytes : List Byte}

/-! ### The class of an instruction -/

/-- The class a byte must have for the instruction to stand at it. -/
def Instr.opcodeClass : Instr → OpcodeClass
  | .jsr _ => .implemented .jsr
  | .ldaImm _ => .implemented .ldaImm
  | .ldaZp _ => .implemented .ldaZp
  | .ldaZpX _ => .implemented .ldaZpX
  | .ldaAbs _ => .implemented .ldaAbs
  | .ldaAbsX _ => .implemented .ldaAbsX
  | .ldaAbsY _ => .implemented .ldaAbsY
  | .halt _ => .halt
  | .unimplemented _ => .unimplemented

@[simp] theorem opcodeClass_build (f : Form) (b1 b2 : Byte) : (f.build b1 b2).opcodeClass = .implemented f := by
  cases f <;> rfl

@[simp] theorem opcode_build (f : Form) (b1 b2 : Byte) : (f.build b1 b2).opcode = f.opcode := by
  cases f <;> rfl

/-- An instruction is a form with its two operand bytes, or one of the two descriptors that take any byte. -/
theorem Instr.built (i : Instr) :
    (∃ f b1 b2, i = Form.build f b1 b2) ∨ (∃ op, i = .halt op) ∨ ∃ op, i = .unimplemented op := by
  cases i with
  | jsr w => exact .inl ⟨.jsr, loByte w, hiByte w, by rw [Form.build, wordOf_hiByte_loByte]⟩
  | ldaImm v => exact .inl ⟨.ldaImm, v, 0, rfl⟩
  | ldaZp z => exact .inl ⟨.ldaZp, z, 0, rfl⟩
  | ldaZpX z => exact .inl ⟨.ldaZpX, z, 0, rfl⟩
  | ldaAbs w => exact .inl ⟨.ldaAbs, loByte w, hiByte w, by rw [Form.build, wordOf_hiByte_loByte]⟩
  | ldaAbsX w => exact .inl ⟨.ldaAbsX, loByte w, hiByte w, by rw [Form.build, wordOf_hiByte_loByte]⟩
  | ldaAbsY w => exact .inl ⟨.ldaAbsY, loByte w, hiByte w, by rw [Form.build, wordOf_hiByte_loByte]⟩
  | halt op => exact .inr (.inl ⟨op, rfl⟩)
  | unimplemented op => exact .inr (.inr ⟨op, rfl⟩)

/-- The checks of an implemented form are those under which its byte keeps its row (rules R57, R58). -/
theorem Form.wf_build_iff (f : Form) (b1 b2 : Byte) :
    (f.build b1 b2).wf cfg = true ↔ classify cfg f.opcode = .implemented f := by
  have hproblem : (f.build b1 b2).problem cfg =
      if cfg.haltOpcode = some f.opcode then some .formIsHaltOpcode
      else if cfg.disabledOpcodes.contains f.opcode then some .formDisabled
      else none := by
    cases f <;> rfl
  rw [Instr.wf, hproblem, classify_implemented, isNone_check, isNone_check]
  simp

/-- An instruction is well formed exactly when its opcode byte has its class. -/
theorem Instr.wf_iff : i.wf cfg = true ↔ classify cfg i.opcode = i.opcodeClass := by
  obtain ⟨f, b1, b2, rfl⟩ | ⟨op, rfl⟩ | ⟨op, rfl⟩ := i.built
  · rw [opcode_build, opcodeClass_build, Form.wf_build_iff]
  · rw [Instr.opcode, Instr.opcodeClass, classify_halt]
    simp [Instr.wf, Instr.problem]
  · simp [Instr.wf, Instr.problem, Instr.opcode, Instr.opcodeClass]

/-! ### What `decodeInstr` reads -/

theorem opcode_decodeInstr (cfg : Config) (op b1 b2 : Byte) : (decodeInstr cfg op b1 b2).opcode = op := by
  unfold decodeInstr
  split
  · next f hclass =>
    obtain ⟨-, -, hop⟩ := classify_implemented.1 hclass
    rw [opcode_build, hop]
  · rfl
  · rfl

theorem opcodeClass_decodeInstr (cfg : Config) (op b1 b2 : Byte) :
    (decodeInstr cfg op b1 b2).opcodeClass = classify cfg op := by
  unfold decodeInstr
  split
  · next f hclass => rw [opcodeClass_build, hclass]
  · next hclass => rw [Instr.opcodeClass, hclass]
  · next hclass => rw [Instr.opcodeClass, hclass]

theorem decodeInstr_wf (cfg : Config) (op b1 b2 : Byte) : (decodeInstr cfg op b1 b2).wf cfg = true := by
  rw [Instr.wf_iff, opcode_decodeInstr, opcodeClass_decodeInstr]

/-- A well-formed instruction is what `decodeInstr` reads at its opcode byte from some operand bytes. -/
theorem exists_decodeInstr (hwf : i.wf cfg = true) : ∃ b1 b2, decodeInstr cfg i.opcode b1 b2 = i := by
  have hclass := Instr.wf_iff.1 hwf
  obtain ⟨f, b1, b2, rfl⟩ | ⟨op, rfl⟩ | ⟨op, rfl⟩ := i.built
  · exact ⟨b1, b2, by rw [decodeInstr, hclass, opcodeClass_build]⟩
  · exact ⟨0, 0, by rw [decodeInstr, hclass]; rfl⟩
  · exact ⟨0, 0, by rw [decodeInstr, hclass]; rfl⟩

/-- The encoding of what `decodeInstr` reads is the opcode byte and as many of the two bytes as it asks for (rules R51,
R52). -/
theorem encode_decodeInstr (cfg : Config) (op b1 b2 : Byte) :
    encode (decodeInstr cfg op b1 b2) = op :: [b1, b2].take (operandBytes cfg op) := by
  unfold decodeInstr operandBytes
  split
  · next f hclass =>
    obtain ⟨-, -, rfl⟩ := classify_implemented.1 hclass
    cases f <;> simp [encode, Form.build, Form.format, Format.operandBytes]
  · rfl
  · rfl

/-! ### The two directions of the decoder -/

/-- A list that starts with an opcode byte and the operand bytes it asks for decodes to what `decodeInstr` reads. -/
theorem decode_operands (cfg : Config) (op b1 b2 : Byte) (rest : List Byte) :
    decode cfg (op :: ([b1, b2].take (operandBytes cfg op) ++ rest)) = .ok (decodeInstr cfg op b1 b2, rest) := by
  simp only [decode, operandBytes, decodeInstr]
  cases classify cfg op with
  | implemented f => cases f <;> rfl
  | halt => rfl
  | unimplemented => rfl

/-- Where the decoder answers, it has read the operand bytes that the opcode byte asks for and no more. -/
theorem decode_ok (h : decode cfg bytes = .ok (i, rest)) :
    ∃ op b1 b2, i = decodeInstr cfg op b1 b2 ∧ bytes = op :: ([b1, b2].take (operandBytes cfg op) ++ rest) := by
  cases bytes with
  | nil => cases h
  | cons op tail =>
    simp only [decode] at h
    split at h
    · next hn => cases h; exact ⟨op, 0, 0, rfl, by rw [hn]; rfl⟩
    · next b1 r hn => cases h; exact ⟨op, b1, 0, rfl, by rw [hn]; rfl⟩
    · next b1 b2 r hn => cases h; exact ⟨op, b1, b2, rfl, by rw [hn]; rfl⟩
    · cases h

/-- Settles O1: a well-formed instruction is read from its opcode byte and the operand bytes of its encoding. -/
theorem decodeInvertsEncode : Obligations.DecodeInvertsEncode := by
  intro cfg i rest hwf
  obtain ⟨b1, b2, hi⟩ := exists_decodeInstr hwf
  have hencode : encode i = i.opcode :: [b1, b2].take (operandBytes cfg i.opcode) := by
    rw [← encode_decodeInstr cfg i.opcode b1 b2, hi]
  rw [hencode, List.cons_append, decode_operands, hi]

/-- Settles O2: what `decodeInstr` reads is well formed and encodes to the bytes it looked at. -/
theorem decodeReadsOnlyEncodings : Obligations.DecodeReadsOnlyEncodings := by
  intro cfg bytes i rest h
  obtain ⟨op, b1, b2, rfl, rfl⟩ := decode_ok h
  exact ⟨decodeInstr_wf cfg op b1 b2, by rw [encode_decodeInstr, List.cons_append]⟩

/-! ### Length -/

/-- The encoding of an instruction is as long as its format says (rule R52). -/
theorem encode_length (i : Instr) : (encode i).length = i.length := by
  cases i <;> rfl

/-- The format of what is read at a byte is that of the mode in the table (rule R51). -/
theorem format_table_mode (cfg : Config) (op b1 b2 : Byte) :
    (table cfg op).mode.format = some (decodeInstr cfg op b1 b2).format := by
  unfold table decodeInstr
  cases classify cfg op with
  | implemented f => cases f <;> rfl
  | halt => rfl
  | unimplemented => rfl

/-- Settles O3: the bytes read are the encoding, and its format is that of the mode in the table. -/
theorem opcodeByteFixesLength : Obligations.OpcodeByteFixesLength := by
  intro cfg op bytes i rest h
  obtain ⟨-, hbytes⟩ := decodeReadsOnlyEncodings cfg _ i rest h
  refine ⟨by rw [← hbytes, List.length_append, encode_length], ?_⟩
  obtain ⟨_, b1, b2, rfl, hlist⟩ := decode_ok h
  obtain ⟨rfl, -⟩ := List.cons.inj hlist
  have hformat := format_table_mode cfg op b1 b2
  rw [Instr.length]
  generalize (decodeInstr cfg op b1 b2).format = format at hformat ⊢
  generalize (table cfg op).mode = mode at hformat ⊢
  cases mode <;> cases hformat <;> rfl

/-! ### The instruction table -/

/-- The bytes without a form are those outside the seven of rule R54 (rule R55). -/
theorem formOf_eq_none : formOf op = none ↔ op ∉ implementedOpcodes := by
  simp [formOf, implementedOpcodes]

theorem classify_default (op : Byte) :
    classify Config.default op = (formOf op).elim .unimplemented .implemented := by
  rw [classify, if_neg (by simp [Config.default]), if_neg (by simp [Config.default])]
  cases formOf op <;> rfl

/-- A byte that is neither the halt opcode nor disabled has the class of the default configuration. -/
theorem classify_unmodified (hhalt : cfg.haltOpcode ≠ some op) (henabled : op ∉ cfg.disabledOpcodes) :
    classify cfg op = classify Config.default op := by
  rw [classify_default, classify, if_neg hhalt, if_neg (by simpa using henabled)]
  cases formOf op <;> rfl

theorem classify_disabled (hhalt : cfg.haltOpcode ≠ some op) (hdisabled : op ∈ cfg.disabledOpcodes) :
    classify cfg op = .unimplemented := by
  rw [classify, if_neg hhalt, if_pos (by simpa using hdisabled)]

theorem table_of_halt (h : classify cfg op = .halt) :
    table cfg op = ⟨op, .halt, .noOperand, .halt, cfg.haltCycles, false⟩ := by
  rw [table, h]

theorem table_of_implemented {f : Form} (h : classify cfg op = .implemented f) : table cfg op = f.descriptor := by
  rw [table, h]

theorem table_of_unimplemented (h : classify cfg op = .unimplemented) :
    table cfg op = ⟨op, .unimplemented, .noOperand, .unimplemented, 0, false⟩ := by
  rw [table, h]

theorem table_unmodified (hhalt : cfg.haltOpcode ≠ some op) (henabled : op ∉ cfg.disabledOpcodes) :
    table cfg op = table Config.default op := by
  have hclass := classify_unmodified hhalt henabled
  cases hdefault : classify Config.default op with
  | implemented f => rw [table_of_implemented hdefault, table_of_implemented (hclass.trans hdefault)]
  | halt => exact absurd (classify_halt.1 (hclass.trans hdefault)) hhalt
  | unimplemented => rw [table_of_unimplemented hdefault, table_of_unimplemented (hclass.trans hdefault)]

/-- Settles O4: a byte has the row of its form, or no form and none of the seven values; a configuration changes the
class of the halt opcode and of the disabled bytes alone. -/
theorem instructionTableContent : Obligations.InstructionTableContent := by
  refine ⟨fun op => ?_, fun cfg op _ => ?_⟩
  · have hclass := classify_default op
    cases hform : formOf op with
    | none =>
      have hother := formOf_eq_none.1 hform
      rw [hform] at hclass
      simp only [implementedOpcodes_eq, List.mem_cons, List.not_mem_nil, or_false, not_or] at hother
      simp only [table_of_unimplemented hclass, hother, if_false]
    | some f =>
      rw [hform] at hclass
      rw [table_of_implemented hclass, ← opcode_of_formOf hform]
      cases f <;> rfl
  · split_ifs with hhalt hdisabled
    · exact table_of_halt (classify_halt.2 hhalt)
    · exact table_of_unimplemented (classify_disabled hhalt hdisabled)
    · exact table_unmodified hhalt hdisabled

/-- Settles O5: each word is evaluated. -/
theorem writtenWordsDecode : Obligations.WrittenWordsDecode :=
  ⟨rfl, rfl, rfl, rfl, rfl, rfl, rfl, rfl⟩

end Sys2Proof
end

section
/-! The step against the bytes at `pc` (rule R67): it runs the instruction they decode to and is the engine's
pseudocode, and `PredictCost` is what it charges (rule R69). -/

namespace Sys2Proof.Machine

variable {s t : State}

/-- Settles O34: the three bytes decode to the instruction that an admitted step fetches. -/
theorem stepRunsDecodedInstruction : Obligations.StepRunsDecodedInstruction := by
  intro s
  obtain ⟨rest, hdecode⟩ :=
    decode_three_bytes s.cfg (s.readByte s.pc) (s.readByte (s.pc + 1)) (s.readByte (s.pc + 2))
  refine ⟨⟨_, rest, hdecode⟩, fun i rest' hcfg hbit5 h => ?_⟩
  rw [hdecode] at h
  cases h
  exact step_of_admitted hcfg hbit5

/-! ### The operand of an instruction whose opcode has been fetched (rule R66) -/

theorem State.advancePc_advancePc (s : State) (m n : Nat) : (s.advancePc m).advancePc n = s.advancePc (m + n) := by
  rw [State.advancePc, State.advancePc, State.advancePc, BitVec.add_assoc, BitVec.ofNat_add]

theorem State.fetchByte_advancePc (s : State) (n : Nat) :
    (s.advancePc n).fetchByte = (s.readByte (s.pc + BitVec.ofNat 16 n), s.advancePc (n + 1)) := by
  rw [State.fetchByte, State.advancePc_advancePc]
  rfl

theorem State.fetchWord_advancePc_one (s : State) :
    (s.advancePc 1).fetchWord = (wordOf (s.readByte (s.pc + 2)) (s.readByte (s.pc + 1)), s.advancePc 3) := by
  simp only [State.fetchWord, State.fetchByte_advancePc]
  rfl

/-! ### An implemented form at `pc` -/

/-- The instruction of a form with the operand bytes at `pc + 1` and `pc + 2` (rule R53). -/
def State.formInstr (s : State) (f : Form) : Instr := f.build (s.readByte (s.pc + 1)) (s.readByte (s.pc + 2))

/-- The operand of that instruction and its extra cycles (rules R73 to R79). -/
def State.formOperand (s : State) (f : Form) : Operand × Nat :=
  let b1 := s.readByte (s.pc + 1)
  let w := wordOf (s.readByte (s.pc + 2)) b1
  match f with
  | .jsr => absoluteOperand w
  | .ldaImm => immediateOperand b1
  | .ldaZp => zeroPageOperand b1
  | .ldaZpX => zeroPageIndexedOperand s.cfg b1 s.x
  | .ldaAbs => absoluteOperand w
  | .ldaAbsX => absoluteIndexedOperand f.descriptor.alwaysPenalize w s.x
  | .ldaAbsY => absoluteIndexedOperand f.descriptor.alwaysPenalize w s.y

/-- What a step of the form charges: base plus extra cycles (rule R68). -/
def State.formCost (s : State) (f : Form) : Nat := f.descriptor.baseCycles + (s.formOperand f).2

/-- After the opcode fetch the resolver takes the operand and leaves `pc` past the instruction. -/
theorem resolve_formOperand (s : State) (f : Form) :
    resolve f.descriptor.mode f.descriptor.alwaysPenalize (s.advancePc 1) =
      .ok (s.formOperand f, s.advancePc f.length) := by
  cases f <;> simp only [Form.descriptor, resolve, State.fetchByte_advancePc, State.fetchWord_advancePc_one] <;> rfl

/-- The extra cycles predicted from the bytes at `pc` are those of the operand (rule R81). -/
theorem extraCycles_formOperand (s : State) (f : Form) :
    extraCycles f.descriptor.mode f.descriptor.alwaysPenalize s = .ok (s.formOperand f).2 := by
  cases f <;> rfl

/-- The handler on the resolved operand is the instruction's own meaning but for the charge. -/
theorem exec_formInstr (s : State) (f : Form) :
    ∃ u, executeHandler f.descriptor (s.formOperand f).1 (s.advancePc f.length) = .ok u ∧ u.cycles = s.cycles ∧
      exec (s.formInstr f) s = .next (u.charge (s.formCost f)) := by
  cases f <;> exact ⟨_, rfl, rfl, rfl⟩

/-! ### The report of a step and the engine's step, by the class of the byte at `pc` -/

theorem stepReport_of_refused {r : Refusal} (h : s.admission = some r) : stepReport s = .error r := by
  simp only [stepReport, step, h]

theorem fetchInstr_of_implemented {f : Form} (h : classify s.cfg (s.readByte s.pc) = .implemented f) :
    s.fetchInstr = s.formInstr f := by
  rw [State.fetchInstr, decodeInstr, h, State.formInstr]

theorem fetchInstr_of_halt (h : classify s.cfg (s.readByte s.pc) = .halt) :
    s.fetchInstr = .halt (s.readByte s.pc) := by
  rw [State.fetchInstr, decodeInstr, h]

theorem fetchInstr_of_unimplemented (h : classify s.cfg (s.readByte s.pc) = .unimplemented) :
    s.fetchInstr = .unimplemented (s.readByte s.pc) := by
  rw [State.fetchInstr, decodeInstr, h]

/-- A completed form reports the cycles it charged. -/
theorem stepReport_of_formInstr {f : Form} (hfetch : s.fetchInstr = s.formInstr f) (h : step s = .next t) :
    stepReport s = .ok (.stepped (t.cycles - s.cycles), t) := by
  simp only [stepReport, h, hfetch]
  cases f <;> rfl

theorem stepReport_of_halt (hadm : s.admission = none) (hclass : classify s.cfg (s.readByte s.pc) = .halt) :
    stepReport s =
      .ok (.haltStep (.haltOpcode (s.readByte s.pc) s.pc), (s.advancePc 1).charge s.cfg.haltCycles) := by
  simp only [stepReport, step, hadm, fetchInstr_of_halt hclass]
  rfl

theorem stepReport_of_unimplemented (hadm : s.admission = none)
    (hclass : classify s.cfg (s.readByte s.pc) = .unimplemented) :
    stepReport s = .ok (.fault (s.readByte s.pc) s.pc, s) := by
  simp only [stepReport, step, hadm, fetchInstr_of_unimplemented hclass]
  rfl

/-- An admitted state whose byte at `pc` has a form completes it on both sides, in one state and for one cost. -/
theorem stepReport_and_engineStep_of_implemented {f : Form} (hadm : s.admission = none)
    (hclass : classify s.cfg (s.readByte s.pc) = .implemented f) :
    ∃ t, stepReport s = .ok (.stepped (s.formCost f), t) ∧ engineStep s = .ok (.stepped (s.formCost f), t) := by
  obtain ⟨u, hhandler, hcycles, hexec⟩ := exec_formInstr s f
  have hfetch := fetchInstr_of_implemented hclass
  have hcost : (u.charge (s.formCost f)).cycles - s.cycles = s.formCost f := by
    rw [State.charge_cycles, hcycles, Nat.add_sub_cancel_left]
  refine ⟨u.charge (s.formCost f), ?_, ?_⟩
  · have hstep : step s = .next (u.charge (s.formCost f)) := by simp only [step, hadm, hfetch, hexec]
    rw [stepReport_of_formInstr hfetch hstep, hcost]
  · have hcomplete : engineComplete f.descriptor (s.advancePc 1) =
        .ok (.stepped (s.formCost f), u.charge (s.formCost f)) := by
      simp only [engineComplete, resolve_formOperand, hhandler]
      rfl
    rw [← hcomplete]
    simp only [engineStep, hadm, table_of_implemented hclass]
    cases f <;> rfl

/-- Settles O36: on a refused state both sides answer the refusal; on an admitted one they agree in each class. -/
theorem stepRefinesEnginePseudocode : Obligations.StepRefinesEnginePseudocode := by
  intro s
  cases hadm : s.admission with
  | some r => simp only [stepReport_of_refused hadm, engineStep, hadm]
  | none =>
    cases hclass : classify s.cfg (s.readByte s.pc) with
    | implemented f =>
      obtain ⟨t, hreport, hengine⟩ := stepReport_and_engineStep_of_implemented hadm hclass
      rw [hreport, hengine]
    | halt => simp only [stepReport_of_halt hadm hclass, engineStep, hadm, table_of_halt hclass]
    | unimplemented =>
      simp only [stepReport_of_unimplemented hadm hclass, engineStep, hadm, table_of_unimplemented hclass]

/-! ### The predicted cost -/

theorem predictCost_of_implemented (policy : FaultPolicy) {f : Form}
    (h : classify s.cfg (s.readByte s.pc) = .implemented f) : predictCost policy s = .ok (s.formCost f) := by
  simp only [predictCost, table_of_implemented h, extraCycles_formOperand]
  cases f <;> rfl

theorem predictCost_of_halt (policy : FaultPolicy) (h : classify s.cfg (s.readByte s.pc) = .halt) :
    predictCost policy s = .ok s.cfg.haltCycles := by
  simp only [predictCost, table_of_halt h]

theorem predictCost_of_unimplemented (policy : FaultPolicy)
    (h : classify s.cfg (s.readByte s.pc) = .unimplemented) :
    predictCost policy s = .ok (if policy = .skip then s.cfg.skipCycles else 1) := by
  simp only [predictCost, table_of_unimplemented h]

/-- The cost that rule R69 gives a step with this result, under a policy. -/
def StepResult.predictedCost (cfg : Config) (policy : FaultPolicy) : StepResult → Nat
  | .stepped c => c
  | .haltStep _ => cfg.haltCycles
  | .fault _ _ => if policy = .skip then cfg.skipCycles else 1

/-- `PredictCost` is the cost of the result that the step reports, by the class of the byte at `pc`. -/
theorem predictCost_of_stepReport (policy : FaultPolicy) {r : StepResult} (h : stepReport s = .ok (r, t)) :
    predictCost policy s = .ok (r.predictedCost s.cfg policy) := by
  cases hadm : s.admission with
  | some e =>
    rw [stepReport_of_refused hadm] at h
    cases h
  | none =>
    cases hclass : classify s.cfg (s.readByte s.pc) with
    | implemented f =>
      obtain ⟨u, hreport, -⟩ := stepReport_and_engineStep_of_implemented hadm hclass
      rw [hreport] at h
      cases h
      exact predictCost_of_implemented policy hclass
    | halt =>
      rw [stepReport_of_halt hadm hclass] at h
      cases h
      exact predictCost_of_halt policy hclass
    | unimplemented =>
      rw [stepReport_of_unimplemented hadm hclass] at h
      cases h
      exact predictCost_of_unimplemented policy hclass

/-- Under the bounds of rule R9 each class costs at least one cycle. -/
theorem exists_predictCost_pos (policy : FaultPolicy) (hcfg : s.cfg.wf = true) :
    ∃ c, predictCost policy s = .ok c ∧ 1 ≤ c := by
  obtain ⟨-, hhalt, hskip, -⟩ := Config.wf_iff.1 hcfg
  cases hclass : classify s.cfg (s.readByte s.pc) with
  | implemented f =>
    exact ⟨_, predictCost_of_implemented policy hclass, Nat.add_pos_left (descriptor_baseCycles_pos f) _⟩
  | halt => exact ⟨_, predictCost_of_halt policy hclass, hhalt⟩
  | unimplemented =>
    refine ⟨_, predictCost_of_unimplemented policy hclass, ?_⟩
    split
    · exact hskip
    · exact Nat.le_refl 1

/-- Settles O41: the three results are the cases of one equation, and each class costs at least 1. -/
theorem predictCostIsExact : Obligations.PredictCostIsExact :=
  fun _ policy => ⟨fun _ _ => predictCost_of_stepReport policy, fun _ _ => predictCost_of_stepReport policy,
    fun _ _ _ => predictCost_of_stepReport policy, exists_predictCost_pos policy⟩

end Sys2Proof.Machine
end

section
/-! The addressing-mode resolver in numbers, the modes the instruction table uses, and the prediction of the extra cycles
(rules R71 to R82). -/

namespace Sys2Proof

/-! ### Operand bytes and words in numbers -/

theorem zext16_eq_ofNat (v : Byte) : zext16 v = BitVec.ofNat 16 v.toNat :=
  (BitVec.ofNat_toNat 16 v).symm

/-- A sum of two bytes wraps within page 0 (rules R75, R76). -/
theorem zext16_add (v w : Byte) : zext16 (v + w) = BitVec.ofNat 16 ((v.toNat + w.toNat) % 256) := by
  rw [zext16_eq_ofNat, BitVec.toNat_add]

theorem hiByte_eq_iff {v w : Addr} : hiByte v = hiByte w ↔ v.toNat / 256 = w.toNat / 256 := by
  rw [← BitVec.toNat_inj, hiByte_toNat, hiByte_toNat]

/-! ### The modes of the instruction table -/

/-- The table has six of the modes with an operand, and NoOperand for the halt and Unimplemented descriptors (rule R62). -/
theorem table_mode_mem (cfg : Config) (op : Byte) :
    (table cfg op).mode ∈
      [Mode.noOperand, .immediate, .zeroPage, .zeroPageX, .absolute, .absoluteX, .absoluteY] := by
  cases hclass : classify cfg op with
  | implemented f =>
    rw [table_of_implemented hclass]
    cases f <;> decide
  | halt =>
    rw [table_of_halt hclass]
    exact List.mem_cons_self
  | unimplemented =>
    rw [table_of_unimplemented hclass]
    exact List.mem_cons_self

end Sys2Proof

namespace Sys2Proof.Machine

variable {s t : State}

/-! ### The indexed absolute modes in numbers -/

/-- The sum is 16 bits wide and may wrap past 0xFFFF (rules R78, R79). -/
theorem absoluteIndexedAddr_toNat (w : Addr) (index : Byte) :
    (absoluteIndexedAddr w index).toNat = (w.toNat + index.toNat) % 65536 := by
  rw [absoluteIndexedAddr, zext16, BitVec.toNat_add, BitVec.toNat_setWidth, Nat.add_mod_mod]

/-- The penalty: the descriptor's flag, or a page crossing (rules R78 to R80). -/
theorem absoluteIndexedOperand_snd (always : Bool) (w : Addr) (index : Byte) :
    (absoluteIndexedOperand always w index).2 =
      if always = true ∨ hiByte w ≠ hiByte (absoluteIndexedAddr w index) then 1 else 0 := by
  simp only [absoluteIndexedOperand, pageCross, Bool.or_eq_true, bne_iff_ne]

theorem absoluteIndexedOperand_eq_ofNat (always : Bool) (w : Addr) (index : Byte) :
    absoluteIndexedOperand always w index =
      (.address (BitVec.ofNat 16 ((w.toNat + index.toNat) % 65536)),
        if always = true ∨ w.toNat / 256 ≠ (w.toNat + index.toNat) % 65536 / 256 then 1 else 0) := by
  refine Prod.ext ?_ ?_
  · rw [← absoluteIndexedAddr_toNat, BitVec.ofNat_toNat, BitVec.setWidth_eq]
    rfl
  · rw [absoluteIndexedOperand_snd]
    simp only [ne_eq, hiByte_eq_iff, absoluteIndexedAddr_toNat]

/-! ### Resolution -/

/-- The word at `pc`, low byte first, and `pc` past both bytes (rule R66). -/
theorem State.fetchWord_eq (s : State) :
    s.fetchWord = (wordOf (s.readByte (s.pc + 1)) (s.readByte s.pc), s.advancePc 2) := by
  simp only [State.fetchWord, State.fetchByte, State.advancePc_advancePc]
  rfl

/-- Settles O18: the operand byte is the one at `pc`, an indexed sum wraps within page 0, and ZeroPageY is not among the
modes of the table. -/
theorem resolveOneByteModes : Obligations.ResolveOneByteModes := by
  refine ⟨fun always s => ⟨rfl, ?_, ?_, ?_⟩, fun cfg op h => ?_⟩
  · rw [resolve, zeroPageOperand, zext16_eq_ofNat]
    rfl
  · rw [resolve, zeroPageIndexedOperand, zext16_add]
    rfl
  · rw [resolve, zeroPageIndexedOperand, zext16_add]
    rfl
  · have hmem := table_mode_mem cfg op
    rw [h] at hmem
    exact absurd hmem (by decide)

/-- Settles O19: the operand word is the one at `pc`, and the indexed operand is read in numbers. -/
theorem resolveTwoByteModes : Obligations.ResolveTwoByteModes := by
  intro always s
  rw [ofNat_succ_mod, ← wordOf_toNat]
  refine ⟨?_, ?_, ?_⟩
  · rw [resolve, State.fetchWord_eq, BitVec.ofNat_toNat, BitVec.setWidth_eq]
    rfl
  · rw [resolve, State.fetchWord_eq, absoluteIndexedOperand_eq_ofNat]
    rfl
  · rw [resolve, State.fetchWord_eq, absoluteIndexedOperand_eq_ofNat]
    rfl

/-- Settles O20: each of the four modes has an arm that refuses it, and none is among the modes of the table. -/
theorem extensionModesRefused : Obligations.ExtensionModesRefused := by
  refine ⟨fun m always s hm => ?_, fun cfg op => ?_⟩
  · simp only [List.mem_cons, List.not_mem_nil, or_false] at hm
    obtain rfl | rfl | rfl | rfl := hm <;> exact ⟨rfl, rfl⟩
  · have hmem := table_mode_mem cfg op
    revert hmem
    generalize (table cfg op).mode = m
    cases m <;> decide

/-! ### The predicted extra cycles -/

/-- After the opcode fetch the resolver reads the operand bytes that the prediction reads, so whenever a mode resolves
its extra cycles are those predicted (rule R81). -/
theorem extraCycles_of_resolve {m : Mode} {always : Bool} {r : Operand × Nat}
    (h : resolve m always (s.advancePc 1) = .ok (r, t)) : extraCycles m always s = .ok r.2 := by
  simp only [resolve, State.fetchByte_advancePc, State.fetchWord_advancePc_one] at h
  cases m with
  | immediate | zeroPage | zeroPageX | zeroPageY | absolute | absoluteX | absoluteY =>
    cases h
    rfl
  | noOperand | indirect | indirectX | indirectY | relative => cases h

/-- For the indexed absolute modes the prediction is the penalty of the operand (rule R81). -/
theorem extraCycles_absoluteIndexed (always : Bool) (s : State) :
    let w := wordOf (s.readByte (s.pc + 2)) (s.readByte (s.pc + 1))
    extraCycles .absoluteX always s = .ok (absoluteIndexedOperand always w s.x).2 ∧
      extraCycles .absoluteY always s = .ok (absoluteIndexedOperand always w s.y).2 :=
  ⟨rfl, rfl⟩

/-- Settles O21: the rule's table, and the agreement of the resolver with the prediction. -/
theorem extraCyclesPredictsResolve : Obligations.ExtraCyclesPredictsResolve := by
  intro always s
  obtain ⟨hx, hy⟩ := extraCycles_absoluteIndexed always s
  rw [absoluteIndexedOperand_snd, absoluteIndexedAddr, zext16_eq_ofNat] at hx hy
  refine ⟨?_, ?_, hx, hy, fun m o e t => extraCycles_of_resolve⟩
  · simp [extraCycles]
  · simp [extraCycles]

end Sys2Proof.Machine
end

section
/-! The load family: what a completed load writes and what it leaves, and the result of each of its six forms (rules R83
to R89). -/

namespace Sys2Proof.Machine

/-! ### The status byte after a load -/

/-- On a status byte whose bit 5 is 0, `updateNZ` is the closed formula (rule R95). -/
theorem updateNZ_eq_nzStatus {st : Byte} (v : Byte) (h5 : st.getLsbD 5 = false) : updateNZ v st = nzStatus v st := by
  rw [BitVec.getLsbD_eq_getElem (by decide)] at h5
  refine BitVec.eq_of_getLsbD_eq fun i hi => ?_
  rw [updateNZ_getLsbD]
  by_cases hv : v = 0#8
  · interval_cases i <;> simp [nzStatus, bit5Clear, h5, hv]
  · interval_cases i <;> simp [nzStatus, bit5Clear, h5, hv]

theorem flag_z_updateNZ (v st : Byte) : flag .z (updateNZ v st) = true ↔ v = 0 := by
  rw [flag, updateNZ_getLsbD]
  simp [Flag.bit]

/-- N is bit 7 of the value, the bit that the mask 0x80 names. -/
theorem flag_n_updateNZ (v st : Byte) : flag .n (updateNZ v st) = true ↔ v &&& 0x80 ≠ 0 := by
  have hmask : (0x80 : Byte) = BitVec.twoPow 8 7 := rfl
  rw [flag, updateNZ_getLsbD, hmask, BitVec.and_twoPow]
  cases hbit : v.getLsbD 7 <;> simp [Flag.bit]

/-! ### A completed load -/

/-- What an operand designates does not depend on `pc`. -/
theorem State.operandValue_advancePc (s : State) (n : Nat) (o : Operand) :
    (s.advancePc n).operandValue o = s.operandValue o := by
  cases o <;> rfl

/-- A load writes `a` and the flags N and Z from the value of its operand, and no index register, stack pointer, byte of
memory, parameter or other flag (rule R83). -/
theorem completeLda_frame (f : Form) (r : Operand × Nat) (s : State) :
    ∃ t, completeLda f r s = .next t ∧ t.a = s.operandValue r.1 ∧
      (flag .z t.status = true ↔ t.a = 0) ∧ (flag .n t.status = true ↔ t.a &&& 0x80 ≠ 0) ∧
      t.x = s.x ∧ t.y = s.y ∧ t.sp = s.sp ∧ t.cfg = s.cfg ∧ (∀ b, t.readByte b = s.readByte b) ∧
      flag .v t.status = flag .v s.status ∧ flag .b t.status = flag .b s.status ∧
      flag .d t.status = flag .d s.status ∧ flag .i t.status = flag .i s.status ∧
      flag .c t.status = flag .c s.status := by
  rw [← State.operandValue_advancePc s f.length]
  have hkept (g : Flag) (hn : g ≠ .n) (hz : g ≠ .z) :=
    flag_updateNZ hn hz ((s.advancePc f.length).operandValue r.1) s.status
  exact ⟨_, rfl, rfl, flag_z_updateNZ _ _, flag_n_updateNZ _ _, rfl, rfl, rfl, rfl, fun _ => rfl,
    hkept .v nofun nofun, hkept .b nofun nofun, hkept .d nofun nofun, hkept .i nofun nofun, hkept .c nofun nofun⟩

/-- Settles O28: each form is a completed load of the operand that its mode resolves to. -/
theorem ldaFrame : Obligations.LdaFrame := by
  intro i s hlda
  cases i with
  | ldaImm v => exact completeLda_frame .ldaImm (immediateOperand v) s
  | ldaZp z => exact completeLda_frame .ldaZp (zeroPageOperand z) s
  | ldaZpX z => exact completeLda_frame .ldaZpX (zeroPageIndexedOperand s.cfg z s.x) s
  | ldaAbs w => exact completeLda_frame .ldaAbs (absoluteOperand w) s
  | ldaAbsX w => exact completeLda_frame .ldaAbsX (absoluteIndexedOperand false w s.x) s
  | ldaAbsY w => exact completeLda_frame .ldaAbsY (absoluteIndexedOperand false w s.y) s
  | jsr _ | halt _ | unimplemented _ => cases hlda

/-! ### The result of each form -/

section Results

variable {s : State}

/-- The complete next state of a load from a state with status bit 5 = 0 (rules R67, R68, R83). -/
theorem completeLda_eq (f : Form) (r : Operand × Nat) (h5 : s.status.getLsbD 5 = false) :
    completeLda f r s =
      .next { s with
        pc := s.pc + BitVec.ofNat 16 f.length, a := s.operandValue r.1
        status := nzStatus (s.operandValue r.1) s.status
        cycles := s.cycles + (f.descriptor.baseCycles + r.2) } := by
  rw [completeLda, ← updateNZ_eq_nzStatus _ h5, ← State.operandValue_advancePc s f.length]
  rfl

/-- An indexed absolute load costs 4 cycles within the page of its base address, 5 outside it (rules R80, R88, R89). -/
theorem completeLda_absoluteIndexed {f : Form} (hbase : f.descriptor.baseCycles = 4) (w : Addr) (index : Byte)
    (h5 : s.status.getLsbD 5 = false) :
    let ea := (w.toNat + index.toNat) % 65536
    let v := s.readByte (BitVec.ofNat 16 ea)
    completeLda f (absoluteIndexedOperand false w index) s =
      .next { s with
        pc := s.pc + BitVec.ofNat 16 f.length, a := v, status := nzStatus v s.status
        cycles := s.cycles + (if w.toNat / 256 = ea / 256 then 4 else 5) } := by
  intro ea v
  have hcost : 4 + (if false = true ∨ w.toNat / 256 ≠ ea / 256 then 1 else 0) =
      if w.toNat / 256 = ea / 256 then 4 else 5 := by
    by_cases hpage : w.toNat / 256 = ea / 256 <;> simp [hpage]
  rw [completeLda_eq f _ h5, absoluteIndexedOperand_eq_ofNat, hbase, hcost]
  rfl

end Results

/-- Settles O22: the load of the operand itself, no extra cycle. -/
theorem ldaImmediateResult : Obligations.LdaImmediateResult :=
  fun _ nn h5 => ⟨rfl, completeLda_eq .ldaImm (immediateOperand nn) h5⟩

/-- Settles O23: the effective address is the operand byte in page 0. -/
theorem ldaZeroPageResult : Obligations.LdaZeroPageResult := by
  intro s zz h5
  rw [← zext16_eq_ofNat]
  exact ⟨rfl, completeLda_eq .ldaZp (zeroPageOperand zz) h5⟩

/-- Settles O24: the indexed sum wraps within page 0. -/
theorem ldaZeroPageXResult : Obligations.LdaZeroPageXResult := by
  intro s zz h5
  rw [← zext16_add]
  exact ⟨rfl, completeLda_eq .ldaZpX (zeroPageIndexedOperand s.cfg zz s.x) h5⟩

/-- Settles O25: the effective address is the operand word. -/
theorem ldaAbsoluteResult : Obligations.LdaAbsoluteResult :=
  fun _ hhll h5 => ⟨rfl, completeLda_eq .ldaAbs (absoluteOperand hhll) h5⟩

/-- Settles O26: the indexed absolute load with `x`. -/
theorem ldaAbsoluteXResult : Obligations.LdaAbsoluteXResult :=
  fun s hhll h5 => ⟨rfl, completeLda_absoluteIndexed (f := .ldaAbsX) rfl hhll s.x h5⟩

/-- Settles O27: the indexed absolute load with `y`. -/
theorem ldaAbsoluteYResult : Obligations.LdaAbsoluteYResult :=
  fun s hhll h5 => ⟨rfl, completeLda_absoluteIndexed (f := .ldaAbsY) rfl hhll s.y h5⟩

end Sys2Proof.Machine
end

section
/-! Control transfer: what the call pushes and what it leaves, the target it takes, and that no other instruction
transfers control, moves `sp` or stores (rules R20, R21, R90 to R92). -/

namespace Sys2Proof.Machine

variable {s t : State}

/-! ### The word pushed and the bytes passed -/

theorem State.pushWord_sp_eq_sub_two (s : State) (v : Addr) : (s.pushWord v).sp = s.sp - 2 := by
  rw [State.pushWord_sp]
  bv_omega

theorem State.readByte_pushWord_other {b : Addr} (v : Addr) (hhi : b ≠ stackAddr s.sp)
    (hlo : b ≠ stackAddr (s.sp - 1)) : (s.pushWord v).readByte b = s.readByte b := by
  rw [State.pushWord, State.readByte_push_other (s := s.push (hiByte v)) _ hlo, State.readByte_push_other _ hhi]

theorem State.advancePc_pc_toNat (s : State) (n : Nat) : (s.advancePc n).pc.toNat = (s.pc.toNat + n) % 65536 := by
  rw [State.advancePc_pc, BitVec.toNat_add, BitVec.toNat_ofNat, Nat.add_mod_mod]

/-! ### The call -/

/-- The word pushed is the address of the instruction's third and last byte (rules R90, R91). -/
theorem exec_jsr (s : State) (target : Addr) :
    exec (.jsr target) s = .next (((s.pushWord (s.pc + 2)).setPc target).charge 6) := by
  have hret : s.pc + 3 - 1 = s.pc + 2 := by bv_omega
  rw [← hret]
  rfl

/-- Settles O29: the call is a word push, a jump and a charge, and only the push writes memory and `sp`. -/
theorem jsrResult : Obligations.JsrResult := by
  intro s target ret
  refine ⟨rfl, _, exec_jsr s target, rfl, ?_, rfl, rfl, rfl, rfl, rfl, rfl,
    fun hwf => ⟨State.readByte_pushWord_hi ret hwf, State.readByte_pushWord_lo ret hwf⟩,
    fun _ => State.readByte_pushWord_other ret⟩
  calc (s.pushWord ret).sp.toNat
    _ = (s.sp - 2).toNat := by rw [State.pushWord_sp_eq_sub_two]
    _ = (s.sp.toNat + 254) % 256 := by bv_omega

/-- Settles O30: a word pop undoes the push of the call; the jump and the charge touch neither memory nor `sp`. -/
theorem jsrReturnAddressPops : Obligations.JsrReturnAddressPops := by
  intro s t target hwf h
  obtain ⟨hword, hsp⟩ := (popWordUndoesPushWord s (s.pc + 2)).2 hwf
  rw [exec_jsr] at h
  cases h
  refine ⟨?_, hsp⟩
  calc (s.pushWord (s.pc + 2)).popWord.1.toNat
    _ = (s.pc + 2).toNat := by rw [hword]
    _ = (s.pc.toNat + 2) % 65536 := BitVec.toNat_add s.pc 2

/-! ### The target of a step at a call -/

theorem opcode_mem_implementedOpcodes (f : Form) : f.opcode ∈ implementedOpcodes := by
  cases f <;> decide

/-- A completed step at a form's opcode byte ran that form: a well-formed configuration does not halt there (rule R9),
and a disabled byte faults (rule R99). -/
theorem fetchInstr_of_step_at_opcode {f : Form} (h : step s = .next t) (hop : s.readByte s.pc = f.opcode) :
    s.fetchInstr = s.formInstr f := by
  obtain ⟨hcfg, -, hexec⟩ := step_next h
  cases hclass : classify s.cfg (s.readByte s.pc) with
  | implemented g =>
    obtain ⟨-, -, hg⟩ := classify_implemented.1 hclass
    have hgf : some g = some f := by rw [← formOf_opcode g, ← formOf_opcode f, hg, hop]
    rw [fetchInstr_of_implemented hclass, Option.some.inj hgf]
  | halt =>
    obtain ⟨-, -, -, hhalt, -⟩ := Config.wf_iff.1 hcfg
    exact absurd (hop ▸ opcode_mem_implementedOpcodes f) (hhalt _ (classify_halt.1 hclass))
  | unimplemented =>
    rw [fetchInstr_of_unimplemented hclass] at hexec
    cases hexec

/-- Settles O31: the operand word is part of the instruction fetched, before the call pushes. -/
theorem jsrTargetReadBeforePush : Obligations.JsrTargetReadBeforePush := by
  intro s t h hop
  have hfetch : s.fetchInstr = .jsr (s.readWord (s.pc + 1)) := by
    have hnext : s.pc + 2 = s.pc + 1 + 1 := by bv_omega
    rw [fetchInstr_of_step_at_opcode (f := .jsr) h hop, State.formInstr, hnext]
    rfl
  obtain ⟨-, -, hexec⟩ := step_next h
  rw [hfetch, exec_jsr] at hexec
  cases hexec
  rfl

/-! ### Every other instruction -/

/-- A completed instruction that is not the call advances `pc` past its own bytes and keeps `sp` and memory. -/
theorem exec_next_of_ne_jsr {i : Instr} (hjsr : ∀ target, i ≠ .jsr target) (h : exec i s = .next t) :
    t.pc = (s.advancePc i.length).pc ∧ t.sp = s.sp ∧ t.mem = s.mem := by
  obtain ⟨f, _, _, -, hlen, rfl⟩ | ⟨target, rfl, -⟩ | ⟨_, rfl, rfl⟩ := exec_next h
  · rw [hlen]
    exact ⟨rfl, rfl, rfl⟩
  · exact absurd rfl (hjsr target)
  · exact ⟨rfl, rfl, rfl⟩

/-- Settles O48: by whether the instruction fetched is the call. -/
theorem onlyJsrTransfersAndStores : Obligations.OnlyJsrTransfersAndStores := by
  intro s t h
  obtain ⟨-, -, hexec⟩ := step_next h
  by_cases hjsr : ∃ target, s.fetchInstr = .jsr target
  · obtain ⟨target, hfetch⟩ := hjsr
    rw [hfetch, exec_jsr] at hexec
    cases hexec
    exact .inl ⟨target, hfetch, rfl, State.pushWord_sp_eq_sub_two s _⟩
  · have hne := not_exists.1 hjsr
    obtain ⟨hpc, hsp, hmem⟩ := exec_next_of_ne_jsr hne hexec
    exact .inr ⟨hne, by rw [hpc, State.advancePc_pc_toNat], hsp, hmem⟩

end Sys2Proof.Machine
end

section
/-! The flag evaluator: what each primitive gives each flag, and the carrying arithmetic of the extension contract (rules
R93 to R98). -/

namespace Sys2Proof.Machine

/-! ### One flag after a primitive -/

/-- No two flags share a bit (rule R22). -/
theorem Flag.bit_inj {f g : Flag} : f.bit = g.bit ↔ f = g := by
  cases f <;> cases g <;> decide

theorem Flag.bit_ne_five (f : Flag) : 5 ≠ f.bit := by
  cases f <;> decide

/-- The mask that clears bit 5 keeps the bit of every flag. -/
theorem bit5Clear_getLsbD_bit (f : Flag) : bit5Clear.getLsbD f.bit = true := by
  cases f <;> rfl

@[simp] theorem flag_writeFlag (f g : Flag) (b : Bool) (st : Byte) :
    flag g (writeFlag f b st) = if g = f then b else flag g st := by
  simp only [flag, writeFlag_getLsbD, bit5Clear_getLsbD_bit, Bool.and_true, Flag.bit_inj]

theorem flag_toggleFlag (f g : Flag) (st : Byte) :
    flag g (toggleFlag f st) = if g = f then !flag g st else flag g st := by
  rw [flag, toggleFlag_getLsbD, bit5Clear_getLsbD_bit, Bool.and_true, flag]
  by_cases h : g = f <;> simp [h, Flag.bit_inj]

theorem writeFlag_bit5 (f : Flag) (b : Bool) (st : Byte) : (writeFlag f b st).getLsbD 5 = false := by
  rw [writeFlag_getLsbD]
  simp [bit5Clear]

theorem toggleFlag_bit5 (f : Flag) (st : Byte) : (toggleFlag f st).getLsbD 5 = false := by
  rw [toggleFlag_getLsbD]
  simp [bit5Clear]

/-- Settles O14: setting and clearing are writing true and false, and toggling is the one other primitive. -/
theorem flagPrimitives : Obligations.FlagPrimitives := by
  refine ⟨by decide, fun f g b st => ⟨rfl, rfl, rfl, ?_⟩⟩
  exact ⟨flag_writeFlag f g true st, flag_writeFlag f g false st, flag_toggleFlag f g st, flag_writeFlag f g b st,
    writeFlag_bit5 f true st, writeFlag_bit5 f false st, toggleFlag_bit5 f st, writeFlag_bit5 f b st⟩

/-- Settles O15: a value that is 0 has no bit 7, so N and Z exclude each other. -/
theorem updateNZWritesExactlyNAndZ : Obligations.UpdateNZWritesExactlyNAndZ := by
  intro v st h5
  have hz := flag_z_updateNZ v st
  have hn := flag_n_updateNZ v st
  refine ⟨updateNZ_eq_nzStatus v h5, ?_, ?_, fun f hfn hfz => flag_updateNZ hfn hfz v st, updateNZ_bit5 v st, ?_⟩
  · rw [Bool.eq_iff_iff, hz, decide_eq_true_iff]
  · rw [Bool.eq_iff_iff, hn, decide_eq_true_iff]
  · rw [hn, hz]
    rintro ⟨hne, rfl⟩
    exact hne BitVec.zero_and

/-! ### Signed bytes -/

/-- Bit 7 of a byte is its sign. -/
theorem getLsbD_seven (v : Byte) : v.getLsbD 7 = decide (128 ≤ v.toNat) :=
  (BitVec.msb_eq_getLsbD_last v).symm.trans (BitVec.msb_eq_decide v)

theorem toInt_eq_ite (v : Byte) : v.toInt = if 128 ≤ v.toNat then (v.toNat : Int) - 256 else v.toNat := by
  rw [BitVec.toInt_eq_msb_cond, BitVec.msb_eq_decide]
  simp

/-- The complement of a byte, which `subFlags` adds, unsigned and signed. -/
theorem xor_0xFF_toNat (m : Byte) : (m ^^^ 0xFF).toNat = 255 - m.toNat := by
  rw [show (0xFF : Byte) = BitVec.allOnes 8 from rfl, BitVec.xor_allOnes, BitVec.toNat_not]

theorem xor_0xFF_toInt (m : Byte) : (m ^^^ 0xFF).toInt = -m.toInt - 1 := by
  rw [toInt_eq_ite, toInt_eq_ite, xor_0xFF_toNat]
  omega

/-- The bit formula of V in rule R97: the sign of the sum differs from the sign of both summands exactly when the signed
sum is no byte. -/
theorem signs_differ_iff_overflow {a m r : Byte} {cin : Bool} (hr : r.toNat = (a.toNat + m.toNat + cin.toNat) % 256) :
    ((a ^^^ r) &&& (m ^^^ r)).getLsbD 7 = true ↔
      a.toInt + m.toInt + cin.toNat < -128 ∨ 127 < a.toInt + m.toInt + cin.toNat := by
  have hcin := cin.toNat_le
  have hsigns : ((a ^^^ r) &&& (m ^^^ r)).getLsbD 7 = true ↔
      ¬(128 ≤ a.toNat ↔ 128 ≤ r.toNat) ∧ ¬(128 ≤ m.toNat ↔ 128 ≤ r.toNat) := by
    rw [BitVec.getLsbD_and, BitVec.getLsbD_xor, BitVec.getLsbD_xor]
    simp only [getLsbD_seven, Bool.and_eq_true, bne_iff_ne, ne_eq, decide_eq_decide]
  rw [hsigns, hr, toInt_eq_ite, toInt_eq_ite]
  omega

theorem flag_n_updateNZ_iff_le (v st : Byte) : flag .n (updateNZ v st) = true ↔ 128 ≤ v.toNat := by
  rw [flag, updateNZ_getLsbD, getLsbD_seven]
  simp [Flag.bit]

/-! ### Addition -/

section Addition

variable (a m : Byte) (cin : Bool) (st : Byte)

theorem addFlags_fst_toNat : (addFlags a m cin st).1.toNat = (a.toNat + m.toNat + cin.toNat) % 256 :=
  BitVec.toNat_ofNat ..

theorem flag_c_addFlags : flag .c (addFlags a m cin st).2 = true ↔ 255 < a.toNat + m.toNat + cin.toNat := by
  rw [addFlags, flag_updateNZ (f := .c) nofun nofun]
  simp

theorem flag_v_addFlags :
    flag .v (addFlags a m cin st).2 = true ↔
      a.toInt + m.toInt + cin.toNat < -128 ∨ 127 < a.toInt + m.toInt + cin.toNat := by
  rw [addFlags, flag_updateNZ (f := .v) nofun nofun, flag_writeFlag, if_pos rfl]
  exact signs_differ_iff_overflow (addFlags_fst_toNat a m cin st)

/-- An addition writes no flag but N, Z, V and C. -/
theorem flag_addFlags_of_ne {f : Flag} (hn : f ≠ .n) (hz : f ≠ .z) (hv : f ≠ .v) (hc : f ≠ .c) :
    flag f (addFlags a m cin st).2 = flag f st := by
  rw [addFlags, flag_updateNZ hn hz, flag_writeFlag, if_neg hv, flag_writeFlag, if_neg hc]

end Addition

/-- Settles O16: each flag of `addFlags` by the lemma about it; B, D and I are none of the four it writes. -/
theorem addFlagsIsBinaryAddition : Obligations.AddFlagsIsBinaryAddition :=
  fun a m cin st => ⟨addFlags_fst_toNat a m cin st, flag_c_addFlags a m cin st, flag_v_addFlags a m cin st,
    flag_n_updateNZ_iff_le _ _, flag_z_updateNZ _ _, flag_addFlags_of_ne a m cin st nofun nofun nofun nofun,
    flag_addFlags_of_ne a m cin st nofun nofun nofun nofun, flag_addFlags_of_ne a m cin st nofun nofun nofun nofun⟩

/-! ### Subtraction, comparison and decimal mode -/

section Comparison

variable (a m st : Byte)

theorem flag_c_compareFlags : flag .c (compareFlags a m st) = true ↔ m.toNat ≤ a.toNat := by
  rw [compareFlags, flag_updateNZ (f := .c) nofun nofun, flag_writeFlag, if_pos rfl, decide_eq_true_iff, BitVec.le_def]

theorem flag_z_compareFlags : flag .z (compareFlags a m st) = true ↔ a = m := by
  rw [compareFlags, flag_z_updateNZ, sub_eq_zero]

theorem flag_n_compareFlags :
    flag .n (compareFlags a m st) = true ↔ 128 ≤ (a.toNat + 256 - m.toNat) % 256 := by
  have hm := m.isLt
  rw [compareFlags, flag_n_updateNZ_iff_le, BitVec.toNat_sub]
  omega

theorem flag_v_compareFlags : flag .v (compareFlags a m st) = flag .v st := by
  rw [compareFlags, flag_updateNZ (f := .v) nofun nofun, flag_writeFlag, if_neg nofun]

end Comparison

theorem unlessDecimal_of_set {mode : DecimalMode} {st : Byte} (binary : Byte × Byte) (hd : flag .d st = true) :
    unlessDecimal mode st binary = .error .decimalModeOpen := by
  cases mode
  rw [unlessDecimal, if_pos hd]

theorem unlessDecimal_of_clear {mode : DecimalMode} {st : Byte} (binary : Byte × Byte) (hd : flag .d st = false) :
    unlessDecimal mode st binary = .ok binary := by
  rw [unlessDecimal, if_neg (by rw [hd]; decide)]

/-- Settles O17: a subtraction is the addition of the complement, `255 - m` unsigned and `-m - 1` signed. -/
theorem subAndCompareFlagsContract : Obligations.SubAndCompareFlagsContract := by
  intro mode a m cin st out cmp
  have hm := m.isLt
  obtain ⟨hresult, hc, hv, hn, hz, -⟩ := addFlagsIsBinaryAddition a (m ^^^ 0xFF) cin st
  rw [xor_0xFF_toNat] at hresult hc
  rw [xor_0xFF_toInt] at hv
  refine ⟨?_, hc.trans ?_, hv.trans ?_, hn, hz, flag_c_compareFlags a m st, flag_z_compareFlags a m st,
    flag_n_compareFlags a m st, flag_v_compareFlags a m st,
    fun hd => ⟨unlessDecimal_of_set _ hd, unlessDecimal_of_set _ hd⟩,
    fun hd => ⟨unlessDecimal_of_clear _ hd, unlessDecimal_of_clear _ hd⟩⟩
  · exact hresult.trans (by omega)
  · omega
  · omega

end Sys2Proof.Machine
end

section
/-! The two descriptors that take any byte: the halt descriptor ends a step and a run (rule R100), the Unimplemented
descriptor raises the one fault (rule R99). -/

namespace Sys2Proof

variable {cfg : Config} {op : Byte}

/-- A byte is Unimplemented when the halt opcode does not replace its row and it is disabled or has no form. -/
theorem classify_unimplemented :
    classify cfg op = .unimplemented ↔
      cfg.haltOpcode ≠ some op ∧ (op ∈ cfg.disabledOpcodes ∨ op ∉ implementedOpcodes) := by
  by_cases hhalt : cfg.haltOpcode = some op
  · simp [classify_halt.2 hhalt, hhalt]
  by_cases hdisabled : op ∈ cfg.disabledOpcodes
  · simp [classify_disabled hhalt hdisabled, hhalt, hdisabled]
  · rw [classify_unmodified hhalt hdisabled, classify_default, ← formOf_eq_none]
    cases formOf op <;> simp [hhalt, hdisabled]

/-- The halt opcode is none of the seven bytes and a disabled one is, so no disabled byte halts (rules R9, R57). -/
theorem haltOpcode_ne_of_disabled (hwf : cfg.wf = true) (hdisabled : op ∈ cfg.disabledOpcodes) :
    cfg.haltOpcode ≠ some op := by
  obtain ⟨-, -, -, hhalt, himplemented, -⟩ := Config.wf_iff.1 hwf
  exact fun h => hhalt op h (himplemented op hdisabled)

theorem classify_unimplemented_of_wf (hwf : cfg.wf = true) :
    classify cfg op = .unimplemented ↔
      (op ∉ implementedOpcodes ∧ cfg.haltOpcode ≠ some op) ∨ op ∈ cfg.disabledOpcodes := by
  have hdisabled := haltOpcode_ne_of_disabled (op := op) hwf
  rw [classify_unimplemented]
  tauto

theorem decodeInstr_eq_unimplemented (b1 b2 : Byte) :
    decodeInstr cfg op b1 b2 = .unimplemented op ↔ classify cfg op = .unimplemented := by
  constructor
  · intro h
    rw [← opcodeClass_decodeInstr cfg op b1 b2, h, Instr.opcodeClass]
  · intro h
    rw [decodeInstr, h]

end Sys2Proof

namespace Sys2Proof.Machine

variable {s t : State}

/-- A run whose budget covers `HALT_CYCLES` and whose first step reports a halt ends with that report (rule R110). -/
theorem runWith_of_haltStep {budget : Nat} {reason : HaltReason} (policy : FaultPolicy) (hadm : s.admission = none)
    (hreport : stepReport s = .ok (.haltStep reason, t)) (hbudget : s.cfg.haltCycles ≤ budget) :
    runWith budget policy s = .ok (.halted reason, t) := by
  have hcost : predictCost policy s = .ok s.cfg.haltCycles := predictCost_of_stepReport policy hreport
  have hfits : ¬budget < 0 + s.cfg.haltCycles := by omega
  simp only [runWith, hadm, runLoop, hcost, if_neg hfits, hreport]

/-- Settles O32: the step at the halt opcode reports the halt, and a run whose budget covers it ends there. -/
theorem haltOpcodeResult : Obligations.HaltOpcodeResult := by
  intro s h budget policy t
  refine ⟨rfl, ?_⟩
  rintro hcfg hbit5 hopcode rfl
  have hadm := State.admission_none.2 ⟨hcfg, hbit5⟩
  have hreport := stepReport_of_halt hadm (classify_halt.2 hopcode)
  exact ⟨hreport, runWith_of_haltStep policy hadm hreport⟩

/-- Settles O33: the bytes are those of the class Unimplemented, and a step at one of them reports its fault. -/
theorem unimplementedRaisesIllegalOpcode : Obligations.UnimplementedRaisesIllegalOpcode := by
  refine ⟨fun _ _ => rfl, ?_, ?_⟩
  · intro cfg op b1 b2 hwf
    rw [← implementedOpcodes_eq, decodeInstr_eq_unimplemented, classify_unimplemented_of_wf hwf]
  · intro s hcfg hbit5 hbyte
    rw [← implementedOpcodes_eq] at hbyte
    exact stepReport_of_unimplemented (State.admission_none.2 ⟨hcfg, hbit5⟩)
      ((classify_unimplemented_of_wf hcfg).2 hbyte)

end Sys2Proof.Machine
end

section
/-! The image of an overlay, and the core under the host's operations (rules R16, R123, R124). -/

namespace Sys2Proof.Machine

/-! ### Overlays -/

/-- The last cell of an overlay is written last. -/
theorem Memory.ofOverlay_append_singleton (cells : List (Addr × Byte)) (c : Addr × Byte) :
    Memory.ofOverlay (cells ++ [c]) = Memory.writeByte (Memory.ofOverlay cells) c.1 c.2 :=
  List.foldl_append

/-- Settles O10, by induction from the end of the overlay: its last cell stands at its own address and leaves every
other address to the cells before it. -/
theorem overlayImageReads : Obligations.OverlayImageReads := by
  intro cells a
  induction cells using List.reverseRecOn with
  | nil => rfl
  | append_singleton cells c ih =>
    rw [Memory.ofOverlay_append_singleton, List.reverse_append, List.reverse_singleton, List.singleton_append]
    by_cases hc : c.1 = a
    · subst hc
      simp [Memory.readByte_writeByte_same c.1 c.2 (Memory.wf_ofOverlay cells)]
    · rw [Memory.readByte_writeByte_other c.2 (Ne.symm hc), ih, List.find?_cons_of_neg (by simpa using hc)]

/-! ### The host's operations -/

section NotReset

variable {e : Emulator} (h : e.core = none)
include h

theorem Emulator.step_of_not_reset : e.step = .error .notReset := by
  rw [Emulator.step, h]

theorem Emulator.run_of_not_reset (budget : Nat) (policy : FaultPolicy) : e.run budget policy = .error .notReset := by
  rw [Emulator.run, h]

theorem Emulator.snapshot_of_not_reset : e.snapshot = .error .notReset := by
  rw [Emulator.snapshot, h]

theorem Emulator.readMemory_of_not_reset (a : Addr) : e.readMemory a = .error .notReset := by
  rw [Emulator.readMemory, h]

end NotReset

theorem Emulator.core_reset (start : Option Addr) (e : Emulator) :
    (e.reset start).core = some (State.resetWith e.params e.params.initialImage (start <|> e.params.startPc)) := rfl

/-- Settles O58: loading an image gives the core no state, so every use of it is refused; after a reset the snapshot and
the reads are those of the reset state. -/
theorem hostInterface : Obligations.HostInterface := by
  intro params image start budget policy a fresh
  have hfresh : fresh.core = none := rfl
  exact ⟨Emulator.step_of_not_reset hfresh, Emulator.run_of_not_reset hfresh budget policy,
    Emulator.snapshot_of_not_reset hfresh, Emulator.readMemory_of_not_reset hfresh a, Emulator.core_reset start fresh,
    rfl, rfl⟩

end Sys2Proof.Machine
end

section
/-! The one exception: where a step faults, and that a fault changes nothing (rules R102, R104). -/

namespace Sys2Proof

variable {cfg : Config} {op : Byte}

theorem handler_descriptor (f : Form) : f.descriptor.handler = .lda ∨ f.descriptor.handler = .jsr := by
  cases f <;> decide

/-- The table names the handler of a byte's class (rule R62). -/
theorem handler_table_unimplemented :
    (table cfg op).handler = .unimplemented ↔ classify cfg op = .unimplemented := by
  cases hclass : classify cfg op with
  | implemented f => obtain h | h := handler_descriptor f <;> simp [table_of_implemented hclass, h]
  | halt => simp [table_of_halt hclass]
  | unimplemented => simp [table_of_unimplemented hclass]

theorem handler_table_halt : (table cfg op).handler = .halt ↔ classify cfg op = .halt := by
  cases hclass : classify cfg op with
  | implemented f => obtain h | h := handler_descriptor f <;> simp [table_of_implemented hclass, h]
  | halt => simp [table_of_halt hclass]
  | unimplemented => simp [table_of_unimplemented hclass]

end Sys2Proof

namespace Sys2Proof.Machine

variable {s t : State}

theorem classify_of_fetchInstr_unimplemented {op : Byte} (h : s.fetchInstr = .unimplemented op) :
    classify s.cfg (s.readByte s.pc) = .unimplemented := by
  rw [State.fetchInstr] at h
  rw [← opcodeClass_decodeInstr s.cfg _ (s.readByte (s.pc + 1)) (s.readByte (s.pc + 2)), h, Instr.opcodeClass]

/-- Settles O38: the only fault of `exec` is that of the Unimplemented descriptor, and it refuses nothing. -/
theorem faultExactlyAtUnimplemented : Obligations.FaultExactlyAtUnimplemented := by
  intro s hcfg hbit5
  rw [ne_eq, handler_table_unimplemented, step_of_admitted hcfg hbit5]
  refine ⟨fun hclass => by rw [fetchInstr_of_unimplemented hclass]; rfl, fun hclass => ?_⟩
  cases hexec : exec s.fetchInstr s with
  | next t => exact ⟨t, rfl⟩
  | fault r =>
    obtain ⟨op, hfetch, -⟩ := exec_fault hexec
    exact absurd (classify_of_fetchInstr_unimplemented hfetch) hclass
  | refused r => exact absurd hexec exec_ne_refused

/-- A step that reports anything starts from an admitted state. -/
theorem admission_of_stepReport {x : StepResult × State} (h : stepReport s = .ok x) : s.admission = none := by
  cases hadm : s.admission with
  | none => rfl
  | some r => rw [stepReport_of_refused hadm] at h; cases h

/-- A reported fault names the byte at `pc` and its address, and the state is the one before the step. -/
theorem stepReport_fault {op : Byte} {pc : Addr} (h : stepReport s = .ok (.fault op pc, t)) :
    t = s ∧ op = s.readByte s.pc ∧ pc = s.pc := by
  have hadm := admission_of_stepReport h
  cases hclass : classify s.cfg (s.readByte s.pc) with
  | implemented f =>
    obtain ⟨u, hreport, -⟩ := stepReport_and_engineStep_of_implemented hadm hclass
    rw [hreport] at h
    cases h
  | halt =>
    rw [stepReport_of_halt hadm hclass] at h
    cases h
  | unimplemented =>
    rw [stepReport_of_unimplemented hadm hclass] at h
    cases h
    exact ⟨rfl, rfl, rfl⟩

/-- Settles O39: the state reported is the state stepped from, so the second step is the first again. -/
theorem faultChangesNothing : Obligations.FaultChangesNothing := by
  intro s t op pc h
  obtain ⟨rfl, hop, hpc⟩ := stepReport_fault h
  exact ⟨rfl, hop, hpc, h⟩

/-- A step reported as Stepped is completed, and the cycles reported are those it added. -/
theorem stepReport_stepped {k : Nat} (h : stepReport s = .ok (.stepped k, t)) :
    step s = .next t ∧ t.cycles = s.cycles + k := by
  have hadm := admission_of_stepReport h
  cases hclass : classify s.cfg (s.readByte s.pc) with
  | implemented f =>
    obtain ⟨u, -, hcycles, hexec⟩ := exec_formInstr s f
    have hfetch := fetchInstr_of_implemented hclass
    have hstep : step s = .next (u.charge (s.formCost f)) := by simp only [step, hadm, hfetch, hexec]
    rw [stepReport_of_formInstr hfetch hstep] at h
    cases h
    exact ⟨hstep, (Nat.add_sub_of_le (step_cycles_lt hstep).le).symm⟩
  | halt =>
    rw [stepReport_of_halt hadm hclass] at h
    cases h
  | unimplemented =>
    rw [stepReport_of_unimplemented hadm hclass] at h
    cases h

/-- An admitted state steps, halts or faults. -/
theorem stepReport_cases (hadm : s.admission = none) :
    (∃ k t, stepReport s = .ok (.stepped k, t)) ∨ (∃ reason t, stepReport s = .ok (.haltStep reason, t)) ∨
      ∃ op pc t, stepReport s = .ok (.fault op pc, t) := by
  cases hclass : classify s.cfg (s.readByte s.pc) with
  | implemented f =>
    obtain ⟨t, hreport, -⟩ := stepReport_and_engineStep_of_implemented hadm hclass
    exact .inl ⟨_, t, hreport⟩
  | halt => exact .inr (.inl ⟨_, _, stepReport_of_halt hadm hclass⟩)
  | unimplemented => exact .inr (.inr ⟨_, _, _, stepReport_of_unimplemented hadm hclass⟩)

end Sys2Proof.Machine
end

section
/-! The run loop (rules R105, R109 to R116). An iteration that fits the budget goes on from another state or ends the
run; a run is a path of iterations that go on, and a last one. -/

namespace Sys2Proof.Machine

variable {policy : FaultPolicy} {budget fuel used k n : Nat} {s t u : State} {r : RunResult}

/-! ### One iteration -/

/-- The iteration at `s`, if it fits, goes on from `t` with `k` more cycles used. -/
inductive Continues (policy : FaultPolicy) (s : State) : Nat → State → Prop
  | stepped {k : Nat} {t : State} (h : stepReport s = .ok (.stepped k, t)) : Continues policy s k t
  | skipped {op : Byte} {pc : Addr} {t : State} (hpolicy : policy = .skip)
      (h : stepReport s = .ok (.fault op pc, t)) : Continues policy s s.cfg.skipCycles t.skipSubstitute

/-- The iteration at `s`, if it fits, ends the run with `r` in the state `t`. -/
inductive Ends (policy : FaultPolicy) (s : State) : RunResult → State → Prop
  | halted {reason : HaltReason} {t : State} (h : stepReport s = .ok (.haltStep reason, t)) :
      Ends policy s (.halted reason) t
  | abort {op : Byte} {pc : Addr} {t : State} (hpolicy : policy = .abort)
      (h : stepReport s = .ok (.fault op pc, t)) : Ends policy s (.fault op pc) t
  | halt {op : Byte} {pc : Addr} {t : State} (hpolicy : policy = .halt)
      (h : stepReport s = .ok (.fault op pc, t)) : Ends policy s (.halted (.illegalOpcode op pc)) t

/-- At an admitted state an iteration that fits goes on or ends the run. -/
theorem continues_or_ends (policy : FaultPolicy) (hadm : s.admission = none) :
    (∃ k t, Continues policy s k t) ∨ ∃ r t, Ends policy s r t := by
  obtain ⟨k, t, h⟩ | ⟨reason, t, h⟩ | ⟨op, pc, t, h⟩ := stepReport_cases hadm
  · exact .inl ⟨k, t, .stepped h⟩
  · exact .inr ⟨_, t, .halted h⟩
  · cases policy with
    | abort => exact .inr ⟨_, t, .abort rfl h⟩
    | halt => exact .inr ⟨_, t, .halt rfl h⟩
    | skip => exact .inl ⟨_, _, .skipped rfl h⟩

/-- The cycles an iteration uses are the predicted cost, under the policy of the call (rule R69, log 4). -/
theorem Continues.predictCost (h : Continues policy s k t) : predictCost policy s = .ok k := by
  cases h with
  | stepped h => exact predictCost_of_stepReport policy h
  | skipped hpolicy h => subst hpolicy; exact predictCost_of_stepReport .skip h

theorem Continues.pos (h : Continues policy s k t) : 1 ≤ k := by
  have hadm : s.admission = none := by
    cases h with
    | stepped h => exact admission_of_stepReport h
    | skipped _ h => exact admission_of_stepReport h
  obtain ⟨hcfg, -⟩ := State.admission_none.1 hadm
  obtain ⟨c, hc, hpos⟩ := exists_predictCost_pos policy hcfg
  rw [h.predictCost] at hc
  cases hc
  exact hpos

theorem step_admission (h : step s = .next t) : t.admission = none := by
  obtain ⟨hcfg, -, -⟩ := step_next h
  obtain ⟨-, -, hkeep⟩ := step_frame h
  exact State.admission_none.2 ⟨hkeep ▸ hcfg, step_status_bit5 h⟩

theorem skipSubstitute_admission (h : s.admission = none) : s.skipSubstitute.admission = none :=
  State.admission_none.2 (State.admission_none.1 h)

theorem Continues.admission (h : Continues policy s k t) : t.admission = none := by
  cases h with
  | stepped h =>
    obtain ⟨hstep, -⟩ := stepReport_stepped h
    exact step_admission hstep
  | skipped _ h =>
    obtain ⟨rfl, -⟩ := stepReport_fault h
    exact skipSubstitute_admission (admission_of_stepReport h)

/-- The cycles an iteration uses are those it adds to the counter. -/
theorem Continues.cycles (h : Continues policy s k t) : t.cycles = s.cycles + k := by
  cases h with
  | stepped h =>
    obtain ⟨-, hcycles⟩ := stepReport_stepped h
    exact hcycles
  | skipped _ h =>
    obtain ⟨rfl, -⟩ := stepReport_fault h
    rfl

theorem runLoop_of_exceeds {cost : Nat} (fuel : Nat) (hcost : predictCost policy s = .ok cost)
    (h : budget < used + cost) : runLoop fuel budget policy used s = .ok (.completed used, s) := by
  cases fuel with
  | zero => rfl
  | succ fuel => simp only [runLoop, hcost, if_pos h]

theorem runLoop_of_continues (h : Continues policy s k t) (hfits : used + k ≤ budget) :
    runLoop (fuel + 1) budget policy used s = runLoop fuel budget policy (used + k) t := by
  simp only [runLoop, h.predictCost, if_neg hfits.not_gt]
  cases h with
  | stepped h => simp only [h]
  | skipped hpolicy h => subst hpolicy; simp only [h]

theorem runLoop_of_ends {cost : Nat} (h : Ends policy s r t) (hcost : predictCost policy s = .ok cost)
    (hfits : used + cost ≤ budget) : runLoop (fuel + 1) budget policy used s = .ok (r, t) := by
  simp only [runLoop, hcost, if_neg hfits.not_gt]
  cases h with
  | halted h => simp only [h]
  | abort hpolicy h => subst hpolicy; simp only [h]
  | halt hpolicy h => subst hpolicy; simp only [h]

/-! ### Iterations that go on -/

/-- From `s` the loop goes on to `t`, using `n` cycles. -/
inductive GoesOn (policy : FaultPolicy) : State → Nat → State → Prop
  | refl (s : State) : GoesOn policy s 0 s
  | head {s t u : State} {k n : Nat} : Continues policy s k t → GoesOn policy t n u → GoesOn policy s (k + n) u

theorem GoesOn.single (h : Continues policy s k t) : GoesOn policy s k t := .head h (.refl t)

theorem GoesOn.trans (h : GoesOn policy s k t) (h' : GoesOn policy t n u) : GoesOn policy s (k + n) u := by
  induction h with
  | refl s => rwa [Nat.zero_add]
  | head hfirst _ ih => rw [Nat.add_assoc]; exact .head hfirst (ih h')

theorem GoesOn.admission (h : GoesOn policy s n t) (hs : s.admission = none) : t.admission = none := by
  induction h with
  | refl s => exact hs
  | head hfirst _ ih => exact ih hfirst.admission

theorem GoesOn.cycles (h : GoesOn policy s n t) : t.cycles = s.cycles + n := by
  induction h with
  | refl s => rfl
  | head hfirst _ ih => rw [ih, hfirst.cycles, Nat.add_assoc]

/-- While the iterations fit the budget the loop follows the path, and the iterations left stay enough, since each one
uses at least one cycle (rule R111, log 18). -/
theorem runLoop_of_goesOn (h : GoesOn policy s n t) (hfits : used + n ≤ budget) (hfuel : budget < used + fuel) :
    ∃ left, budget < used + n + left ∧
      runLoop fuel budget policy used s = runLoop left budget policy (used + n) t := by
  induction h generalizing used fuel with
  | refl s => exact ⟨fuel, hfuel, rfl⟩
  | head hfirst _ ih =>
    have hpos := hfirst.pos
    obtain ⟨fuel, rfl⟩ := Nat.exists_eq_add_one_of_ne_zero (n := fuel) (by omega)
    rw [runLoop_of_continues hfirst (by omega), ← Nat.add_assoc]
    exact ih (by omega) (by omega)

/-! ### Whole runs -/

/-- The loop of rule R110 without a bound on its iterations: from `s`, with nothing used, it returns `r` and leaves
`t`. -/
inductive RunsTo (budget : Nat) (policy : FaultPolicy) (s : State) : RunResult → State → Prop
  | completed {n cost : Nat} {t : State} (hpath : GoesOn policy s n t) (hn : n ≤ budget)
      (hcost : predictCost policy t = .ok cost) (hexceeds : budget < n + cost) :
      RunsTo budget policy s (.completed n) t
  | ended {n cost : Nat} {t u : State} {r : RunResult} (hpath : GoesOn policy s n t)
      (hcost : predictCost policy t = .ok cost) (hfits : n + cost ≤ budget) (hend : Ends policy t r u) :
      RunsTo budget policy s r u

/-- The result of a run that had used `used` cycles before. -/
def RunResult.addUsed (used : Nat) : RunResult → RunResult
  | .completed n => .completed (used + n)
  | .halted reason => .halted reason
  | .fault op pc => .fault op pc

theorem RunResult.addUsed_zero (r : RunResult) : r.addUsed 0 = r := by
  cases r with
  | completed n => rw [addUsed, Nat.zero_add]
  | halted reason => rfl
  | fault op pc => rfl

theorem Ends.addUsed (h : Ends policy s r t) (used : Nat) : r.addUsed used = r := by
  cases h <;> rfl

/-- A run after a path is one run whose budget covers the path too. -/
theorem RunsTo.of_goesOn (hpath : GoesOn policy s n t) (h : RunsTo budget policy t r u) :
    RunsTo (n + budget) policy s (r.addUsed n) u := by
  cases h with
  | completed hpath' hn hcost hexceeds => exact .completed (hpath.trans hpath') (by omega) hcost (by omega)
  | ended hpath' hcost hfits hend =>
    rw [hend.addUsed]
    exact .ended (hpath.trans hpath') hcost (by omega) hend

/-- A run that completed went on all the way and has no room for the next iteration. -/
theorem RunsTo.of_completed (h : RunsTo budget policy s (.completed n) t) :
    GoesOn policy s n t ∧ n ≤ budget ∧ ∃ cost, predictCost policy t = .ok cost ∧ budget < n + cost := by
  cases h with
  | completed hpath hn hcost hexceeds => exact ⟨hpath, hn, _, hcost, hexceeds⟩
  | ended _ _ _ hend => cases hend

/-- Every run returns: an iteration that goes on leaves less of the budget. -/
theorem exists_runsTo (budget : Nat) (policy : FaultPolicy) (hadm : s.admission = none) :
    ∃ r t, RunsTo budget policy s r t := by
  induction budget using Nat.strong_induction_on generalizing s with
  | h budget ih =>
    obtain ⟨hcfg, -⟩ := State.admission_none.1 hadm
    obtain ⟨cost, hcost, hpos⟩ := exists_predictCost_pos policy hcfg
    by_cases hfits : budget < cost
    · exact ⟨_, s, .completed (.refl s) (Nat.zero_le _) hcost (by omega)⟩
    obtain ⟨k, t, hgo⟩ | ⟨r, t, hend⟩ := continues_or_ends policy hadm
    · obtain rfl : k = cost := by simpa [hgo.predictCost] using hcost
      obtain ⟨r, u, hrest⟩ := ih (budget - k) (by omega) hgo.admission
      have hrun := hrest.of_goesOn (.single hgo)
      rw [Nat.add_sub_of_le (Nat.le_of_not_lt hfits)] at hrun
      exact ⟨_, u, hrun⟩
    · exact ⟨r, t, .ended (.refl s) hcost (by omega) hend⟩

/-- The model's loop is the unbounded one for every bound above the budget that is left. -/
theorem runLoop_of_runsTo (used : Nat) (h : RunsTo budget policy s r t) (hfuel : budget < fuel) :
    runLoop fuel (used + budget) policy used s = .ok (r.addUsed used, t) := by
  cases h with
  | completed hpath hn hcost hexceeds =>
    obtain ⟨left, -, hloop⟩ := runLoop_of_goesOn hpath (Nat.add_le_add_left hn used)
      (Nat.add_lt_add_left hfuel used)
    rw [hloop, runLoop_of_exceeds left hcost (by omega)]
    rfl
  | ended hpath hcost hfits hend =>
    obtain ⟨left, hleft, hloop⟩ := runLoop_of_goesOn (used := used) (budget := used + budget) hpath (by omega)
      (Nat.add_lt_add_left hfuel used)
    obtain ⟨left, rfl⟩ := Nat.exists_eq_add_one_of_ne_zero (n := left) (by omega)
    rw [hloop, runLoop_of_ends hend hcost (by omega), hend.addUsed]

theorem runWith_of_admission (budget : Nat) (policy : FaultPolicy) (hadm : s.admission = none) :
    runWith budget policy s = runLoop (budget + 1) budget policy 0 s := by
  simp only [runWith, hadm]

theorem admission_of_runWith {x : RunResult × State} (h : runWith budget policy s = .ok x) : s.admission = none := by
  cases hadm : s.admission with
  | none => rfl
  | some e =>
    simp only [runWith, hadm] at h
    cases h

theorem runWith_of_runsTo (hadm : s.admission = none) (h : RunsTo budget policy s r t) :
    runWith budget policy s = .ok (r, t) := by
  have hloop := runLoop_of_runsTo 0 h (Nat.lt_add_one budget)
  rwa [Nat.zero_add, r.addUsed_zero, ← runWith_of_admission budget policy hadm] at hloop

theorem runsTo_of_runWith (h : runWith budget policy s = .ok (r, t)) : RunsTo budget policy s r t := by
  have hadm := admission_of_runWith h
  obtain ⟨r', t', hrun⟩ := exists_runsTo budget policy hadm
  rw [runWith_of_runsTo hadm hrun] at h
  cases h
  exact hrun

/-- Any two bounds above what is left of the budget give the same result (log 18). -/
theorem runLoop_fuel {fuel' : Nat} (hadm : s.admission = none) (hused : used ≤ budget) (hfuel : budget < used + fuel)
    (hfuel' : budget < used + fuel') :
    runLoop fuel budget policy used s = runLoop fuel' budget policy used s := by
  obtain ⟨left, rfl⟩ := Nat.exists_eq_add_of_le hused
  obtain ⟨r, t, hrun⟩ := exists_runsTo left policy hadm
  rw [runLoop_of_runsTo used hrun (by omega), runLoop_of_runsTo used hrun (by omega)]

/-! ### The statements about runs -/

/-- Settles O51: the first iteration of the loop is one of the cases of its pseudocode, and the bound on the iterations
after it does not show. -/
theorem runIsTheLoop : Obligations.RunIsTheLoop := by
  intro budget used policy s hcfg hbit5 hused loop
  have hadm := State.admission_none.2 ⟨hcfg, hbit5⟩
  refine ⟨runWith_of_admission budget policy hadm, ?_⟩
  have hbound : budget + 1 - used = budget - used + 1 := by omega
  obtain ⟨cost, hcost, -⟩ := exists_predictCost_pos policy hcfg
  by_cases hexceeds : budget < used + cost
  · simp only [loop, runLoop_of_exceeds _ hcost hexceeds, hcost, if_pos hexceeds]
  simp only [hcost, if_neg hexceeds]
  have hfits := Nat.le_of_not_lt hexceeds
  have hgoes {k : Nat} {t : State} (hgo : Continues policy s k t) : loop used s = loop (used + k) t := by
    obtain rfl : k = cost := by simpa [hgo.predictCost] using hcost
    have hpos := hgo.pos
    simp only [loop, hbound, runLoop_of_continues hgo hfits]
    exact runLoop_fuel hgo.admission hfits (by omega) (by omega)
  have hends {r : RunResult} {t : State} (hend : Ends policy s r t) : loop used s = .ok (r, t) := by
    simp only [loop, hbound, runLoop_of_ends hend hcost hfits]
  obtain ⟨k, t, h⟩ | ⟨reason, t, h⟩ | ⟨op, pc, t, h⟩ := stepReport_cases hadm
  · rw [h, hgoes (.stepped h)]
  · rw [h, hends (.halted h)]
  · rw [h]
    cases policy with
    | abort => exact hends (.abort rfl h)
    | halt => exact hends (.halt rfl h)
    | skip => exact hgoes (.skipped rfl h)

/-- Settles O52: the unbounded loop returns, and the model's loop is that one for every bound above the budget. -/
theorem runReturnsWithinBudget : Obligations.RunReturnsWithinBudget := by
  intro budget extra policy s hcfg hbit5
  have hadm := State.admission_none.2 ⟨hcfg, hbit5⟩
  obtain ⟨r, t, hrun⟩ := exists_runsTo budget policy hadm
  have hwith := runWith_of_runsTo hadm hrun
  refine ⟨r, t, hwith, ?_, ?_⟩
  · rw [← hwith, runWith_of_admission budget policy hadm]
    exact runLoop_fuel hadm (Nat.zero_le _) (by omega) (by omega)
  · rintro used rfl
    obtain ⟨-, hused, cost, hcost, hexceeds⟩ := hrun.of_completed
    exact ⟨hused, cost, hcost, by omega⟩

/-- A run whose first iteration does not fit the budget completes at once (rule R105). -/
theorem runWith_of_exceeds {cost : Nat} (hadm : s.admission = none) (hcost : predictCost policy s = .ok cost)
    (h : budget < cost) : runWith budget policy s = .ok (.completed 0, s) :=
  runWith_of_runsTo hadm (.completed (.refl s) (Nat.zero_le _) hcost (by omega))

/-- Settles O53: every iteration costs at least one cycle. -/
theorem runWithZeroBudget : Obligations.RunWithZeroBudget := by
  intro policy s hcfg hbit5
  obtain ⟨cost, hcost, hpos⟩ := exists_predictCost_pos policy hcfg
  exact runWith_of_exceeds (State.admission_none.2 ⟨hcfg, hbit5⟩) hcost hpos

/-- Settles O54: a run that completed is a path, and each of its iterations adds what it uses. -/
theorem runAccountsCycles : Obligations.RunAccountsCycles := by
  intro budget used policy s t h
  obtain ⟨hpath, -⟩ := (runsTo_of_runWith h).of_completed
  exact hpath.cycles

/-- Settles O55: the completed run is a path, and the second run after it is one run with the path in front. -/
theorem runIsResumable : Obligations.RunIsResumable := by
  intro b1 b2 u1 policy s t1 hcfg hbit5 h
  have hadm := State.admission_none.2 ⟨hcfg, hbit5⟩
  obtain ⟨hpath, -⟩ := (runsTo_of_runWith h).of_completed
  have hadm1 := hpath.admission hadm
  obtain ⟨r, t2, hrun⟩ := exists_runsTo b2 policy hadm1
  rw [runWith_of_runsTo hadm (hrun.of_goesOn hpath), runWith_of_runsTo hadm1 hrun]
  cases r with
  | completed u2 => rfl
  | halted reason => rfl
  | fault op pc => rfl

/-- A run whose first iteration fits the budget and ends it returns what that iteration gives. -/
theorem runWith_of_ends {cost : Nat} (hadm : s.admission = none) (hend : Ends policy s r t)
    (hcost : predictCost policy s = .ok cost) (hfits : cost ≤ budget) : runWith budget policy s = .ok (r, t) :=
  runWith_of_runsTo hadm (.ended (.refl s) hcost (by omega) hend)

/-- Settles O56: under Abort and Halt the faulting iteration ends the run, under Skip it goes on with the no-op. -/
theorem faultPolicies : Obligations.FaultPolicies := by
  intro budget s hcfg hbit5 hhandler
  have hadm := State.admission_none.2 ⟨hcfg, hbit5⟩
  have hclass := handler_table_unimplemented.1 hhandler
  have hreport := stepReport_of_unimplemented hadm hclass
  have hcost (policy : FaultPolicy) := predictCost_of_unimplemented policy hclass
  refine ⟨runWith_of_ends hadm (.abort rfl hreport) (hcost .abort),
    runWith_of_ends hadm (.halt rfl hreport) (hcost .halt), fun hfits => ?_⟩
  rw [runWith_of_admission budget .skip hadm, runLoop_of_continues (.skipped rfl hreport) (by omega), Nat.zero_add]
  rfl

/-- Settles O57: the cost that rule R69 gives the byte's class does not fit. -/
theorem budgetTestComesFirst : Obligations.BudgetTestComesFirst := by
  intro budget policy s hcfg hbit5
  have hadm := State.admission_none.2 ⟨hcfg, hbit5⟩
  rw [handler_table_unimplemented, handler_table_halt]
  exact ⟨fun hclass => runWith_of_exceeds hadm (predictCost_of_unimplemented policy hclass),
    fun hclass => runWith_of_exceeds hadm (predictCost_of_halt policy hclass)⟩

end Sys2Proof.Machine
end

section
/-! The cycles of a step by the opcode at `pc` (rules R68, R131). -/

namespace Sys2Proof

theorem Form.opcode_inj {f g : Form} (h : f.opcode = g.opcode) : f = g :=
  Option.some.inj (by rw [← formOf_opcode f, ← formOf_opcode g, h])

end Sys2Proof

namespace Sys2Proof.Machine

variable {s t : State}

/-- All a step can report, by the class of the byte at `pc`: the form of that byte with its cost, the halt descriptor, or
the fault of the Unimplemented descriptor (rules R68, R99, R100). -/
theorem stepReport_ok {r : StepResult} (h : stepReport s = .ok (r, t)) :
    (∃ f : Form, s.readByte s.pc = f.opcode ∧ r = .stepped (s.formCost f)) ∨
      (s.cfg.haltOpcode = some (s.readByte s.pc) ∧ r = .haltStep (.haltOpcode (s.readByte s.pc) s.pc) ∧
        t = (s.advancePc 1).charge s.cfg.haltCycles) ∨
      r = .fault (s.readByte s.pc) s.pc ∧ t = s := by
  have hadm := admission_of_stepReport h
  cases hclass : classify s.cfg (s.readByte s.pc) with
  | implemented f =>
    obtain ⟨u, hreport, -⟩ := stepReport_and_engineStep_of_implemented hadm hclass
    obtain ⟨-, -, hop⟩ := classify_implemented.1 hclass
    rw [hreport] at h
    cases h
    exact .inl ⟨f, hop.symm, rfl⟩
  | halt =>
    rw [stepReport_of_halt hadm hclass] at h
    cases h
    exact .inr (.inl ⟨classify_halt.1 hclass, rfl, rfl⟩)
  | unimplemented =>
    rw [stepReport_of_unimplemented hadm hclass] at h
    cases h
    exact .inr (.inr ⟨rfl, rfl⟩)

/-- The operand word of an instruction is the word at `pc + 1`. -/
theorem State.wordOf_operand (s : State) :
    wordOf (s.readByte (s.pc + 2)) (s.readByte (s.pc + 1)) = s.readWord (s.pc + 1) := by
  have hnext : s.pc + 2 = s.pc + 1 + 1 := by bv_omega
  rw [hnext]
  rfl

/-- An indexed absolute operand costs four base cycles, and a fifth where the address leaves the page of its base (rules
R78 to R80). -/
theorem absoluteIndexed_cost (s : State) (index : Byte) :
    let w := (s.readWord (s.pc + 1)).toNat
    4 + (absoluteIndexedOperand false (wordOf (s.readByte (s.pc + 2)) (s.readByte (s.pc + 1))) index).2 =
      if w / 256 = (w + index.toNat) % 65536 / 256 then 4 else 5 := by
  rw [State.wordOf_operand, absoluteIndexedOperand_eq_ofNat]
  generalize (s.readWord (s.pc + 1)).toNat = w
  by_cases hpage : w / 256 = (w + index.toNat) % 65536 / 256 <;> simp [hpage]

/-- Settles O40: by what the step can report; an opcode byte fixes the form that ran, and with it the cost. -/
theorem stepCycleCost : Obligations.StepCycleCost := by
  intro s t r h op w
  obtain ⟨f, hf, rfl⟩ | ⟨hhalt, rfl, rfl⟩ | ⟨rfl, rfl⟩ := stepReport_ok h
  · obtain ⟨-, hcycles⟩ := stepReport_stepped h
    have hmem : s.readByte s.pc ∈ implementedOpcodes := hf ▸ opcode_mem_implementedOpcodes f
    have hcost (g : Form) (hg : op = g.opcode) : s.formCost f = s.formCost g := by
      rw [Form.opcode_inj (hf.symm.trans hg)]
    exact ⟨hcycles, hcost .jsr, hcost .ldaImm, hcost .ldaZp, hcost .ldaZpX, hcost .ldaAbs,
      fun hop => (hcost .ldaAbsX hop).trans (absoluteIndexed_cost s s.x),
      fun hop => (hcost .ldaAbsY hop).trans (absoluteIndexed_cost s s.y), hmem⟩
  · exact ⟨rfl, hhalt⟩
  · rfl

end Sys2Proof.Machine
end

section
/-! The states a step refuses (rules R9, R127), and the state after reset with the first step from it (rules R125,
R126). -/

namespace Sys2Proof.Machine

variable {s : State}

/-! ### Refused states -/

theorem step_of_refused {r : Refusal} (h : s.admission = some r) : step s = .refused r := by
  rw [step, h]

theorem State.admission_of_bit5 (hcfg : s.cfg.wf = true) (hbit5 : s.status.getLsbD 5 = true) :
    s.admission = some .statusBit5Set := by
  rw [State.admission, Option.isNone_iff_eq_none.1 hcfg, hbit5]
  rfl

theorem State.admission_of_problem {p : ConfigProblem} (h : s.cfg.problem = some p) :
    s.admission = some (.badConfig p) := by
  rw [State.admission, h]

/-- Settles O37: admission names the reason, the configuration's before the status byte's, and step refuses with it. -/
theorem inadmissibleStateRefused : Obligations.InadmissibleStateRefused :=
  ⟨fun _ hcfg hbit5 => step_of_refused (State.admission_of_bit5 hcfg hbit5),
    fun _ _ h => step_of_refused (State.admission_of_problem h)⟩

/-! ### The state after reset -/

section ResetWith

variable (cfg : Config) (image : Option Memory) (start : Option Addr)

theorem State.resetWith_registers :
    let s := State.resetWith cfg image start
    s.sp = 0xFF ∧ s.a = 0 ∧ s.x = 0 ∧ s.y = 0 ∧ s.status = 0 ∧ s.cycles = 0 :=
  ⟨rfl, rfl, rfl, rfl, rfl, rfl⟩

/-- `pc` is the override, or the vector in the memory that the reset leaves. -/
theorem State.resetWith_pc :
    let s := State.resetWith cfg image start
    s.pc = start.getD (wordOf (s.readByte 0xFFFD) (s.readByte 0xFFFC)) := rfl

end ResetWith

theorem State.readByte_reset (a : Addr) : State.reset.readByte a = 0x00 := rfl

/-- Settles O42: the fields of a reset, and `State.reset` is the one with the default parameters. -/
theorem resetValues : Obligations.ResetValues :=
  ⟨fun cfg image start =>
      ⟨rfl, State.resetWith_pc cfg image start, State.resetWith_registers cfg image start⟩,
    fun _ => rfl, reset_eq_resetWith, State.readByte_reset⟩

/-- The byte at 0x0000 of zeroed memory has no form, so the first step faults there. -/
theorem stepReport_reset : stepReport State.reset = .ok (.fault 0x00 0x0000, State.reset) :=
  stepReport_of_unimplemented (State.admission_none.2 (by decide)) (by decide)

/-- Settles O43: zeroed memory faults at once, and the vector is the word of the two bytes given. -/
theorem resetCases : Obligations.ResetCases := by
  refine ⟨rfl, stepReport_reset, fun cfg image hlo hhi => ⟨?_, rfl⟩, State.resetWith_registers⟩
  calc (State.resetWith cfg (some image) none).pc
    _ = wordOf (Memory.readByte image 0xFFFD) (Memory.readByte image 0xFFFC) :=
      State.resetWith_pc cfg (some image) none
    _ = 0x0200 := by rw [hlo, hhi]; rfl

end Sys2Proof.Machine
end
